-- ==== Sys2Proof/Word.lean ====
section
/-! DEFINITION. The value types of the engine.

The unsigned quantities of IDX_W bits (capacity, count, front_index, iter_pos, an index, a CSR value) are plain
`Nat`: arithmetic on them is exact and never wraps (00_scope.md R14). An element, the W-bit value of a slot
(10_state.md R22), is the `Nat` its bits stand for: W is a parameter (00_scope.md R10) and no command computes on
an element (R12). That each fits its width is part of the model's invariant (log 8). Bit vectors stand where the
spec speaks of bits: command and response words, their fields, codes, STATUS, transport bytes. -/

namespace Sys2Proof

/-- One byte of a byte-wide transport (20_memory.md R55). -/
abbrev Byte := BitVec 8

end Sys2Proof
end

