-- ==== Sys2Proof/Config.lean ====
section
/-! DEFINITION. What an engine instance fixes: the five parameters of 00_scope.md R10, which sets of them
are legal, and the example configuration EX of R11. The spec leaves no other value open, so there is no
free value here. -/

namespace Sys2Proof

/-- The parameters of one engine instance (00_scope.md R10), each fixed for its life. -/
structure Params where
  /-- `W`, the width in bits of one element. -/
  w : Nat
  /-- `IDX_W`, the width in bits of capacity, count, front_index, indices and CSR values. -/
  idxW : Nat
  /-- `CAP_MAX`, the largest capacity the physical storage can hold. -/
  capMax : Nat
  /-- `CAP_INIT`, the capacity after hardware reset. -/
  capInit : Nat
  /-- `DEFAULT_VALUE`, what a fresh slot holds. -/
  defaultValue : Nat
deriving DecidableEq, Repr

/-- The bounds of 00_scope.md R10. A set that breaks them is not an RBUF engine (92_eei_decisions.md D32). -/
abbrev Params.Legal (p : Params) : Prop :=
  1 ≤ p.w ∧ 8 ≤ p.idxW ∧ p.capMax ≤ 2 ^ (p.idxW - 1) ∧ p.capInit ≤ p.capMax ∧ p.defaultValue < 2 ^ p.w

/-- The example configuration EX of 00_scope.md R11. It is not a property of the hardware (log 1). -/
def Config.ex : Params :=
  { w := 32, idxW := 32, capMax := 16, capInit := 3, defaultValue := 0 }

end Sys2Proof
end

