-- ==== Sys2Proof/Syntax.lean ====
section
/-! DEFINITION. The command set: one constructor for each row of spec/opcode_table.json (30_encoding.md
R78). A field that a command ignores (R73, R74) is no argument of its constructor. -/

namespace Sys2Proof

/-- One command (30_encoding.md R78). An operand `i`, `n` or `c` comes from IDX, an operand `v` from DATA; each is the number its bits stand for (log 8). -/
inductive Instr where
  /-- `SIZE`, OP 0x0, rule R100. -/
  | size
  /-- `FRONT`, OP 0x1, rule R101. -/
  | front
  /-- `BACK`, OP 0x2, rule R102. -/
  | back
  /-- `AT i`, OP 0x3, rule R103. -/
  | atIndex (i : Nat)
  /-- `PUSH_FRONT v`, OP 0x4, rule R110. -/
  | pushFront (v : Nat)
  /-- `PUSH_BACK v`, OP 0x5, rule R111. -/
  | pushBack (v : Nat)
  /-- `EMPLACE_FRONT v`, OP 0x6, rule R112. -/
  | emplaceFront (v : Nat)
  /-- `EMPLACE_BACK v`, OP 0x7, rule R113. -/
  | emplaceBack (v : Nat)
  /-- `POP_FRONT`, OP 0x8, rule R120. -/
  | popFront
  /-- `POP_BACK`, OP 0x9, rule R121. -/
  | popBack
  /-- `RESET`, OP 0xA, rule R130 (the command, not the hardware reset). -/
  | reset
  /-- `RESIZE n`, OP 0xB, rule R131. -/
  | resize (n : Nat)
  /-- `ITER_BEGIN`, OP 0xC, rule R140. -/
  | iterBegin
  /-- `ITER_NEXT`, OP 0xD, rule R141. -/
  | iterNext
  /-- `READ_CSR c`, OP 0xE, rule R150. -/
  | readCsr (c : Nat)
deriving DecidableEq, Repr

end Sys2Proof
end

