-- ==== Sys2Proof/WellFormed.lean ====
section
/-! DEFINITION. Which commands fit the command word of an engine: the operand must fit its field
(30_encoding.md R70, R84). -/

namespace Sys2Proof

/-- An IDX_W-bit operand field holds `i` (30_encoding.md R73). -/
def Params.fitsIdx (p : Params) (i : Nat) : Bool := decide (i < 2 ^ p.idxW)

/-- A W-bit operand field holds `v` (30_encoding.md R74). -/
def Params.fitsData (p : Params) (v : Nat) : Bool := decide (v < 2 ^ p.w)

/-- The check behind `Instr.WellFormed`. -/
def Instr.wellFormed (p : Params) : Instr → Bool
  | .size => true
  | .front => true
  | .back => true
  | .atIndex i => p.fitsIdx i
  | .pushFront v => p.fitsData v
  | .pushBack v => p.fitsData v
  | .emplaceFront v => p.fitsData v
  | .emplaceBack v => p.fitsData v
  | .popFront => true
  | .popBack => true
  | .reset => true
  | .resize n => p.fitsIdx n
  | .iterBegin => true
  | .iterNext => true
  | .readCsr c => p.fitsIdx c

/-- A command fits the word of an engine with parameters `p`: an IDX operand fits IDX_W bits and a DATA
operand W bits (30_encoding.md R70, R73, R74). Every value that fits is legal at decode (R79). -/
abbrev Instr.WellFormed (p : Params) (i : Instr) : Prop := i.wellFormed p = true

end Sys2Proof
end

