-- ==== Sys2Proof/Decode.lean ====
section
/-! DEFINITION. The decoder and, after it, the encoder: the command word of 30_encoding.md R70 and its byte
transport (20_memory.md R55). Everything is total: a word that is no command is rejected by name. -/

namespace Sys2Proof

/-- `CW_W`, the width of a command word and of a response word: 8 + IDX_W + W (30_encoding.md R66). It is
written in the order of the fields, so that a word is their concatenation. -/
abbrev Params.wordWidth (p : Params) : Nat := p.w + p.idxW + 4 + 4

/-- One command word or response word: CW_W bits (30_encoding.md R66, R83). -/
abbrev Params.Word (p : Params) := BitVec p.wordWidth

/-- Why bits or bytes are no command. Safe: the decoder answers with no instruction; the engine's answer to
the first two is the fault ILLEGAL_COMMAND. -/
inductive DecodeError where
  /-- RSV is not 0 (30_encoding.md R72). -/
  | reservedField
  /-- OP is 0xF (30_encoding.md R79). -/
  | illegalOpcode
  /-- A byte transport delivered another number of bytes than one word has (20_memory.md R55, log 12). -/
  | wrongLength
  /-- A byte transport set a bit above bit CW_W-1 (20_memory.md R55, log 12). -/
  | paddingBits
deriving DecidableEq, Repr

/-! ### The fields of a command word (30_encoding.md R70) -/

/-- `cmd.OP`, bits [3:0]. -/
def opField (p : Params) (w : p.Word) : BitVec 4 := w.extractLsb' 0 4

/-- `cmd.RSV`, bits [7:4]. -/
def rsvField (p : Params) (w : p.Word) : BitVec 4 := w.extractLsb' 4 4

/-- `cmd.IDX`, bits [IDX_W+7:8], unsigned and unscaled (R73). -/
def idxField (p : Params) (w : p.Word) : BitVec p.idxW := w.extractLsb' 8 p.idxW

/-- `cmd.DATA`, bits [IDX_W+W+7:IDX_W+8] (R74). -/
def dataField (p : Params) (w : p.Word) : BitVec p.w := w.extractLsb' (p.idxW + 8) p.w

/-! ### Decoding -/

/-- The opcode map of 30_encoding.md R78: the command of an opcode with its operands; none for 0xF. -/
def instrOf (op : Nat) (idx : Nat) (data : Nat) : Option Instr :=
  match op with
  | 0x0 => some .size
  | 0x1 => some .front
  | 0x2 => some .back
  | 0x3 => some (.atIndex idx)
  | 0x4 => some (.pushFront data)
  | 0x5 => some (.pushBack data)
  | 0x6 => some (.emplaceFront data)
  | 0x7 => some (.emplaceBack data)
  | 0x8 => some .popFront
  | 0x9 => some .popBack
  | 0xA => some .reset
  | 0xB => some (.resize idx)
  | 0xC => some .iterBegin
  | 0xD => some .iterNext
  | 0xE => some (.readCsr idx)
  | _ => none

/-- The decoder of 30_encoding.md R79 and R80: RSV first, then the opcode map. Total on every word. -/
def decode (p : Params) (w : p.Word) : Except DecodeError Instr :=
  if rsvField p w = 0 then
    match instrOf (opField p w).toNat (idxField p w).toNat (dataField p w).toNat with
    | some i => .ok i
    | none => .error .illegalOpcode
  else .error .reservedField

/-! ### Bytes of a transport (20_memory.md R55): byte k is bits [8k+7:8k] -/

/-- The first `n` bytes of a number, the least significant byte first. -/
def bytesOf : Nat → Nat → List Byte
  | 0, _ => []
  | n + 1, v => BitVec.ofNat 8 v :: bytesOf n (v / 256)

/-- The number whose bytes these are, the least significant byte first. -/
def numberOf : List Byte → Nat
  | [] => 0
  | b :: bs => b.toNat + 256 * numberOf bs

/-- How many bytes carry one word. -/
def Params.wordBytes (p : Params) : Nat := (p.wordWidth + 7) / 8

/-- The bytes that carry one command or response word. -/
def bytesOfWord (p : Params) (w : p.Word) : List Byte := bytesOf p.wordBytes w.toNat

/-- The command or response word that these bytes carry: exactly one word, nothing above bit CW_W-1 (log 12). -/
def wordOfBytes (p : Params) (bs : List Byte) : Except DecodeError p.Word :=
  if bs.length ≠ p.wordBytes then .error .wrongLength
  else if 2 ^ p.wordWidth ≤ numberOf bs then .error .paddingBits
  else .ok (BitVec.ofNat p.wordWidth (numberOf bs))

/-- The decoder on the bytes of a transport. -/
def decodeBytes (p : Params) (bs : List Byte) : Except DecodeError Instr :=
  match wordOfBytes p bs with
  | .ok w => decode p w
  | .error e => .error e

/-- The instruction the decoder reads from a table row's bits `w`, in configuration EX, which is the one
spec/opcode_table.json is written in (log 13): the bits are laid out as the bytes of one word, least
significant first, and every bit above `nbits` is 0. -/
def decodeTableWord (nbits w : Nat) : Option Instr :=
  (decodeBytes Config.ex (bytesOf (max Config.ex.wordBytes ((nbits + 7) / 8)) (w % 2 ^ nbits))).toOption

/-! ### Encoding -/

/-- The opcode of a command (30_encoding.md R78). -/
def opcodeOf : Instr → BitVec 4
  | .size => 0x0
  | .front => 0x1
  | .back => 0x2
  | .atIndex _ => 0x3
  | .pushFront _ => 0x4
  | .pushBack _ => 0x5
  | .emplaceFront _ => 0x6
  | .emplaceBack _ => 0x7
  | .popFront => 0x8
  | .popBack => 0x9
  | .reset => 0xA
  | .resize _ => 0xB
  | .iterBegin => 0xC
  | .iterNext => 0xD
  | .readCsr _ => 0xE

/-- The IDX field of a command; an ignored field is written 0 (30_encoding.md R81, R84). -/
def idxOf : Instr → Nat
  | .size => 0
  | .front => 0
  | .back => 0
  | .atIndex i => i
  | .pushFront _ => 0
  | .pushBack _ => 0
  | .emplaceFront _ => 0
  | .emplaceBack _ => 0
  | .popFront => 0
  | .popBack => 0
  | .reset => 0
  | .resize n => n
  | .iterBegin => 0
  | .iterNext => 0
  | .readCsr c => c

/-- The DATA field of a command; an ignored field is written 0 (30_encoding.md R81, R84). -/
def dataOf : Instr → Nat
  | .size => 0
  | .front => 0
  | .back => 0
  | .atIndex _ => 0
  | .pushFront v => v
  | .pushBack v => v
  | .emplaceFront v => v
  | .emplaceBack v => v
  | .popFront => 0
  | .popBack => 0
  | .reset => 0
  | .resize _ => 0
  | .iterBegin => 0
  | .iterNext => 0
  | .readCsr _ => 0

/-- The command word with these fields, `{DATA, IDX, RSV, OP}` (30_encoding.md R70; 00_scope.md R13). -/
def packWord (p : Params) (data : BitVec p.w) (idx : BitVec p.idxW) (rsv op : BitVec 4) : p.Word :=
  data ++ idx ++ rsv ++ op

/-- The encoder: OP, RSV = 0, the operand in its field, every ignored field 0 (30_encoding.md R84). -/
def encode (p : Params) (i : Instr) : p.Word :=
  packWord p (BitVec.ofNat p.w (dataOf i)) (BitVec.ofNat p.idxW (idxOf i)) 0 (opcodeOf i)

/-- The bytes that carry a command over a byte-wide transport (20_memory.md R55). -/
def encodeBytes (p : Params) (i : Instr) : List Byte := bytesOfWord p (encode p i)

end Sys2Proof
end

