-- ==== Sys2Proof/Machine/State.lean ====
section
/-! DEFINITION. The engine's state (10_state.md R20), the ports the model holds beside it (30_encoding.md
R66), its state after hardware reset (R44), and the reasons a step can stop. -/

namespace Sys2Proof.Machine

/-- The cause codes of 60_exceptions.md R161. Codes 7 to 15 are never produced, so they are no value here
(log 11). `none` is code 0, NONE. -/
inductive Cause where
  | none
  | emptyAccess
  | indexRange
  | iterInvalid
  | resizeCapacity
  | illegalCommand
  | illegalCsr
deriving DecidableEq, Repr

/-- The status codes of 30_encoding.md R76. Codes 5 to 15 are never produced, so they are no value here
(log 11). `endOfSeq` is END. -/
inductive Status where
  | ok
  | noop
  | endOfSeq
  | fault
  | faulted
deriving DecidableEq, Repr

/-- One response, `respond(st, rval, rdata)` (30_encoding.md R75). -/
structure Response where
  /-- ST, the status. -/
  st : Status
  /-- RVAL, an IDX_W-bit value. -/
  rval : Nat
  /-- RDATA, a W-bit element. -/
  rdata : Nat
deriving DecidableEq, Repr

/-- What the host drives on the engine's input ports in one turn (30_encoding.md R66). -/
structure PortInputs where
  /-- `rst`: hardware reset. -/
  rst : Bool
  /-- `cmd` while `cmd_valid` = 1, as the number its bits stand for; none while `cmd_valid` = 0 (log 4). -/
  cmd : Option Nat
  /-- `rsp_ready`: the host takes the response. -/
  rspReady : Bool
deriving DecidableEq, Repr

/-- The slots that hold something else than DEFAULT_VALUE, as (slot, element) pairs, slots strictly rising
(20_memory.md R45, R49; log 7). A slot below `capacity` that is not listed holds DEFAULT_VALUE. -/
abbrev Memory := List (Nat × Nat)

/-- The engine. `capacity` to `cause` are the spec's state, R20; `params`, `rsp` and `inputs` are its
configuration and ports (logs 1 to 3). -/
structure State where
  /-- The parameters of this instance (00_scope.md R10, log 1). No step changes them. -/
  params : Params
  /-- `capacity` (R21). -/
  capacity : Nat
  /-- `storage` (R22). -/
  storage : Memory
  /-- `front_index`, a physical slot index (R23). -/
  frontIndex : Nat
  /-- `count` (R24). -/
  count : Nat
  /-- `iter_valid` (R29). -/
  iterValid : Bool
  /-- `iter_pos`, a logical position (R30). -/
  iterPos : Nat
  /-- `fault`, sticky (R32). -/
  fault : Bool
  /-- `cause` (R33). -/
  cause : Cause
  /-- The response port: the response on offer, none while `rsp_valid` = 0 (30_encoding.md R66, log 3). -/
  rsp : Option Response
  /-- What the host will drive, turn by turn (60_exceptions.md R182, log 2). -/
  inputs : List PortInputs
deriving DecidableEq, Repr

/-- Why the model stops. -/
inductive Fault where
  /-- `MemRead` or `MemWrite` at a slot outside [0, capacity) (20_memory.md R47). Raised by `memRead` and
  `memWrite`; safe: the spec calls it unreachable and asks for a model-level fault, never a value (93 U6). -/
  | slotOutOfRange (slot : Nat)
deriving DecidableEq, Repr

/-- Why the model has no meaning for what it is given. -/
inductive Refusal where
  /-- The instruction has no meaning in this model yet; raised by `exec` only, and safe. -/
  | notModelled (mnemonic : String)
  /-- The parameters break the bounds of 00_scope.md R10, so this is no RBUF engine (92_eei_decisions.md
  D32); raised by `step`, and safe. -/
  | illegalParameters
deriving DecidableEq, Repr

/-- The state after hardware reset of an engine with parameters `p`: `Create(CAP_INIT)` (10_state.md R44,
70_reset_and_hazards.md R190). Every slot holds DEFAULT_VALUE, so none is listed; no response is on offer;
the host's next turns are not the engine's to say. -/
def State.hardwareReset (p : Params) (inputs : List PortInputs) : State :=
  { params := p, capacity := p.capInit, storage := [], frontIndex := 0, count := 0,
    iterValid := false, iterPos := 0, fault := false, cause := .none, rsp := none, inputs := inputs }

/-- The machine right after reset: hardware reset in configuration EX (log 1), with no host turn placed
(log 2). -/
def State.reset : State := State.hardwareReset Config.ex []

end Sys2Proof.Machine
end

