-- ==== Sys2Proof/Machine/Ops.lean ====
section
/-! DEFINITION. The named operations of the command rules (00_scope.md R15): access to the slots, the
response, taking a fault, and the guard of the FAULTED state. -/

namespace Sys2Proof.Machine

/-! ### Slots (20_memory.md R45 to R49) -/

/-- The element that storage holds at slot `k`; a slot that is not listed holds the default `d` (R49). -/
def memoryRead (d : Nat) : Memory → Nat → Nat
  | [], _ => d
  | (a, x) :: rest, k => if a = k then x else memoryRead d rest k

/-- Storage with element `v` at slot `k`. It keeps the canonical form: slots rising, no default listed. -/
def memoryWrite (d : Nat) : Memory → Nat → Nat → Memory
  | [], k, v => if v = d then [] else [(k, v)]
  | (a, x) :: rest, k, v =>
    if k < a then (if v = d then (a, x) :: rest else (k, v) :: (a, x) :: rest)
    else if k = a then (if v = d then rest else (k, v) :: rest)
    else (a, x) :: memoryWrite d rest k v

/-- The canonical form of a storage of `cap` slots in an engine with parameters `p`: slots strictly rising
and below `cap`, elements of W bits, and no entry that an unlisted slot would read as (log 7). -/
abbrev Memory.wf (p : Params) (cap : Nat) (m : Memory) : Prop :=
  m.Pairwise (fun c e => c.1 < e.1) ∧ ∀ c ∈ m, c.1 < cap ∧ c.2 < 2 ^ p.w ∧ c.2 ≠ p.defaultValue

/-- `storage[k]`, the element slot `k` holds. -/
def readSlot (s : State) (k : Nat) : Nat := memoryRead s.params.defaultValue s.storage k

/-- `MemRead(k, 1)` (R47): defined only for k < capacity, a model-level fault elsewhere (log 9). -/
def memRead (s : State) (k : Nat) : Except Fault Nat :=
  if k < s.capacity then .ok (readSlot s k) else .error (.slotOutOfRange k)

/-- `MemWrite(k, 1, v)` (R47): defined only for k < capacity, a model-level fault elsewhere (log 9). -/
def memWrite (s : State) (k : Nat) (v : Nat) : Except Fault State :=
  if k < s.capacity then .ok { s with storage := memoryWrite s.params.defaultValue s.storage k v }
  else .error (.slotOutOfRange k)

/-! ### Responses and faults -/

/-- `respond(st, rval, rdata)`: the command's one response is put on offer (30_encoding.md R67, R75). -/
def respond (s : State) (st : Status) (rval : Nat) (rdata : Nat) : State :=
  { s with rsp := some { st := st, rval := rval, rdata := rdata } }

/-- The 4-bit code of a cause (60_exceptions.md R161). -/
def causeCode : Cause → BitVec 4
  | .none => 0
  | .emptyAccess => 1
  | .indexRange => 2
  | .iterInvalid => 3
  | .resizeCapacity => 4
  | .illegalCommand => 5
  | .illegalCsr => 6

/-- TAKING A FAULT, `raise Fault(c)` (60_exceptions.md R166): fault and cause are set, the response is FAULT
with the cause code, and nothing else changes. There is no vector and nothing is saved (R173). The one way
back is `State.hardwareReset` (R172). -/
def raiseFault (s : State) (c : Cause) : State :=
  respond { s with fault := true, cause := c } .fault (causeCode c).toNat 0

/-- The response of the FAULTED state to all but a legal READ_CSR: nothing changes (R170). -/
def answerFaulted (s : State) : State := respond s .faulted 0 0

/-- What a command rule comes to, as an outcome of the machine. -/
def finish : Except Fault State → Host.Outcome State Fault Refusal
  | .ok t => .next t
  | .error f => .fault f

/-- The dispatch's guard (30_encoding.md R80): while FAULTED the command is not executed. -/
def unlessFaulted (s : State) (rule : Except Fault State) : Host.Outcome State Fault Refusal :=
  if s.fault then .next (answerFaulted s) else finish rule

/-- Any word with RSV ≠ 0 or OP = 0xF: ILLEGAL_COMMAND, before any command rule runs (60_exceptions.md
R167), unless FAULTED (R171). -/
def illegalCommand (s : State) : Host.Outcome State Fault Refusal :=
  unlessFaulted s (.ok (raiseFault s .illegalCommand))

/-- The empty buffer that RESET, RESIZE and hardware reset leave: front_index = 0, count = 0. -/
def emptied (s : State) : State := { s with frontIndex := 0, count := 0 }

/-- Cursor invalidation by a mutating command (44_iteration.md R142). -/
def invalidate (s : State) : State := { s with iterValid := false }

/-- The answer of a push or pop on a capacity-0 engine: NOOP, only the cursor is invalidated (10_state.md
R28, 44_iteration.md R142). -/
def noop (s : State) : State := respond (invalidate s) .noop 0 0

end Sys2Proof.Machine
end

