-- ==== Sys2Proof/Machine/Operands.lean ====
section
/-! DEFINITION. What an operand names: a logical position becomes a physical slot (20_memory.md R50 to
R54), an IDX becomes a CSR (10_state.md R35); and the contents `Seq` that positions range over (R25). -/

namespace Sys2Proof.Machine

/-- `ModuloInc(i)` at capacity `cap` (20_memory.md R50). Never evaluated at capacity 0 (R53). -/
def moduloInc (cap i : Nat) : Nat := (i + 1) % cap

/-- `ModuloDec(i)` at capacity `cap` (20_memory.md R51). Never evaluated at capacity 0 (R53). -/
def moduloDec (cap i : Nat) : Nat := if i = 0 then cap - 1 else i - 1

/-- `Slot(p)`, the physical slot of logical position `p` (20_memory.md R52), on exact naturals (R14). -/
def slot (s : State) (p : Nat) : Nat := (s.frontIndex + p) % s.capacity

/-- `Seq`, the live elements front to back (10_state.md R25). -/
def contents (s : State) : List Nat := (List.range s.count).map (fun p => readSlot s (slot s p))

/-- The CSRs of 10_state.md R35. -/
inductive Csr where
  | status
  | capacity
  | count
  | front
  | iterPos
deriving DecidableEq, Repr

/-- The CSR that an IDX names; none for 5 and above, which are illegal (10_state.md R41). -/
def csrOf : Nat → Option Csr
  | 0 => some .status
  | 1 => some .capacity
  | 2 => some .count
  | 3 => some .front
  | 4 => some .iterPos
  | _ => none

end Sys2Proof.Machine
end

