-- ==== Sys2Proof/Machine/Access.lean ====
section
/-! DEFINITION. Size and element access: SIZE, FRONT, BACK, AT (40_access.md). None changes buffer or cursor
state (20_memory.md R58). -/

namespace Sys2Proof.Machine

/-- The access commands' last line: respond OK with a position and the element at its slot. -/
def answerElement (s : State) (rval : Nat) (k : Nat) : Except Fault State := do
  let v ← memRead s k
  pure (respond s .ok rval v)

/-- SIZE (R100). -/
def execSize (s : State) : Host.Outcome State Fault Refusal :=
  unlessFaulted s (.ok (respond s .ok s.count 0))

/-- FRONT (R101). -/
def execFront (s : State) : Host.Outcome State Fault Refusal :=
  unlessFaulted s (if s.count = 0 then .ok (raiseFault s .emptyAccess) else answerElement s 0 s.frontIndex)

/-- BACK (R102). -/
def execBack (s : State) : Host.Outcome State Fault Refusal :=
  unlessFaulted s
    (if s.count = 0 then .ok (raiseFault s .emptyAccess)
     else answerElement s (s.count - 1) (slot s (s.count - 1)))

/-- AT i (R103). -/
def execAtIndex (i : Nat) (s : State) : Host.Outcome State Fault Refusal :=
  unlessFaulted s (if s.count ≤ i then .ok (raiseFault s .indexRange) else answerElement s i (slot s i))

end Sys2Proof.Machine
end

