-- ==== Sys2Proof/Machine/Bulk.lean ====
section
/-! DEFINITION. Bulk commands: RESET and RESIZE (43_bulk.md). Both run at capacity 0 (90_conflicts.md C7). -/

namespace Sys2Proof.Machine

/-- RESET (R130): capacity, slots and fault state stay. -/
def execReset (s : State) : Host.Outcome State Fault Refusal :=
  unlessFaulted s (.ok (respond (invalidate (emptied s)) .ok 0 0))

/-- RESIZE n (R131): fresh storage of n default-valued slots, so none is listed; nothing is preserved. -/
def execResize (n : Nat) (s : State) : Host.Outcome State Fault Refusal :=
  unlessFaulted s
    (.ok (if s.params.capMax < n then raiseFault s .resizeCapacity
          else respond (invalidate (emptied { s with capacity := n, storage := [] })) .ok n 0))

end Sys2Proof.Machine
end

