-- ==== Sys2Proof/Machine/Flags.lean ====
section
/-! DEFINITION. The derived flags (10_state.md R34), STATUS (R36) and the values of the five CSRs (R35). -/

namespace Sys2Proof.Machine

/-- `EMPTY` (10_state.md R34). -/
def emptyFlag (s : State) : Bool := s.count == 0

/-- `FULL` (10_state.md R34); at capacity 0 both flags are 1. -/
def fullFlag (s : State) : Bool := s.count == s.capacity

/-- The eight defined bits of STATUS, `{FULL, EMPTY, iter_valid, cause[3:0], fault}` (10_state.md R36). -/
def statusBits (s : State) : BitVec 8 :=
  BitVec.ofBool (fullFlag s) ++ BitVec.ofBool (emptyFlag s) ++ BitVec.ofBool s.iterValid ++ causeCode s.cause ++
    BitVec.ofBool s.fault

/-- STATUS, zero-extended to IDX_W bits: the reserved bits read 0 (10_state.md R36). -/
def statusValue (s : State) : Nat := ((statusBits s).setWidth s.params.idxW).toNat

/-- The value of a CSR (10_state.md R35, 45_csr.md R150). -/
def csrValue (s : State) : Csr → Nat
  | .status => statusValue s
  | .capacity => s.capacity
  | .count => s.count
  | .front => s.frontIndex
  | .iterPos => s.iterPos

end Sys2Proof.Machine
end

