-- ==== Sys2Proof/Machine/Csr.lean ====
section
/-! DEFINITION. READ_CSR (45_csr.md). -/

namespace Sys2Proof.Machine

/-- READ_CSR c (R150): a legal number is read even while FAULTED (30_encoding.md R80); an illegal one raises
ILLEGAL_CSR, or answers FAULTED while FAULTED. -/
def execReadCsr (c : Nat) (s : State) : Host.Outcome State Fault Refusal :=
  match csrOf c with
  | some r => .next (respond s .ok (csrValue s r) 0)
  | none => unlessFaulted s (.ok (raiseFault s .illegalCsr))

end Sys2Proof.Machine
end

