-- ==== Sys2Proof/Machine/Insertion.lean ====
section
/-! DEFINITION. Insertion: PUSH_FRONT, PUSH_BACK, EMPLACE_FRONT, EMPLACE_BACK (41_insertion.md). They never
fault: a full buffer overwrites, capacity 0 is a NOOP. -/

namespace Sys2Proof.Machine

/-- The pseudocode of R110: insert before the front; when full, the back falls out of the window. -/
def insertFront (v : Nat) (s : State) : Except Fault State :=
  if s.capacity = 0 then .ok (noop s)
  else do
    let f := moduloDec s.capacity s.frontIndex
    let t ← memWrite { s with frontIndex := f } f v
    let n := if s.count < s.capacity then s.count + 1 else s.count
    pure (respond (invalidate { t with count := n }) .ok n 0)

/-- The pseudocode of R111: insert after the back; when full, the window slides past the front. -/
def insertBack (v : Nat) (s : State) : Except Fault State :=
  if s.capacity = 0 then .ok (noop s)
  else do
    let t ← memWrite s (slot s s.count) v
    let u := if s.count < s.capacity then { t with count := s.count + 1 }
      else { t with frontIndex := moduloInc s.capacity s.frontIndex }
    pure (respond (invalidate u) .ok u.count 0)

/-- PUSH_FRONT v (R110). -/
def execPushFront (v : Nat) (s : State) : Host.Outcome State Fault Refusal :=
  unlessFaulted s (insertFront v s)

/-- PUSH_BACK v (R111). -/
def execPushBack (v : Nat) (s : State) : Host.Outcome State Fault Refusal :=
  unlessFaulted s (insertBack v s)

/-- EMPLACE_FRONT v (R112): the host has constructed the element; otherwise PUSH_FRONT's pseudocode. -/
def execEmplaceFront (v : Nat) (s : State) : Host.Outcome State Fault Refusal :=
  unlessFaulted s (insertFront v s)

/-- EMPLACE_BACK v (R113): the host has constructed the element; otherwise PUSH_BACK's pseudocode. -/
def execEmplaceBack (v : Nat) (s : State) : Host.Outcome State Fault Refusal :=
  unlessFaulted s (insertBack v s)

end Sys2Proof.Machine
end

