-- ==== Sys2Proof/Machine/Iteration.lean ====
section
/-! DEFINITION. Iteration: ITER_BEGIN and ITER_NEXT over the one cursor (44_iteration.md). -/

namespace Sys2Proof.Machine

/-- ITER_BEGIN (R140). -/
def execIterBegin (s : State) : Host.Outcome State Fault Refusal :=
  unlessFaulted s (.ok (respond { s with iterValid := true, iterPos := 0 } .ok s.count 0))

/-- ITER_NEXT (R141). -/
def execIterNext (s : State) : Host.Outcome State Fault Refusal :=
  unlessFaulted s
    (if s.iterValid = false then .ok (raiseFault s .iterInvalid)
     else if s.iterPos = s.count then .ok (respond s .endOfSeq s.count 0)
     else do
       let v ← memRead s (slot s s.iterPos)
       pure (respond { s with iterPos := s.iterPos + 1 } .ok s.iterPos v))

end Sys2Proof.Machine
end

