-- ==== Sys2Proof/Machine/Removal.lean ====
section
/-! DEFINITION. Removal: POP_FRONT and POP_BACK (42_removal.md). Neither writes a slot (20_memory.md R49). -/

namespace Sys2Proof.Machine

/-- POP_FRONT (R120); the capacity-0 test comes before the empty test (60_exceptions.md R171). -/
def execPopFront (s : State) : Host.Outcome State Fault Refusal :=
  unlessFaulted s
    (if s.capacity = 0 then .ok (noop s)
     else if s.count = 0 then .ok (raiseFault s .emptyAccess)
     else do
       let v ← memRead s s.frontIndex
       let t := { s with frontIndex := moduloInc s.capacity s.frontIndex, count := s.count - 1 }
       pure (respond (invalidate t) .ok t.count v))

/-- POP_BACK (R121); the slot read is that of the new count, the previous back slot. -/
def execPopBack (s : State) : Host.Outcome State Fault Refusal :=
  unlessFaulted s
    (if s.capacity = 0 then .ok (noop s)
     else if s.count = 0 then .ok (raiseFault s .emptyAccess)
     else do
       let t := { s with count := s.count - 1 }
       let v ← memRead t (slot t t.count)
       pure (respond (invalidate t) .ok t.count v))

end Sys2Proof.Machine
end

