-- ==== Sys2Proof/Machine/Dispatch.lean ====
section
/-! DEFINITION. The dispatch of 30_encoding.md R80 over the commands of R78: one arm per constructor. -/

namespace Sys2Proof.Machine

def exec (i : Instr) (s : State) : Host.Outcome State Fault Refusal :=
  match i with
  | .size => Sys2Proof.Machine.execSize s
  | .front => Sys2Proof.Machine.execFront s
  | .back => Sys2Proof.Machine.execBack s
  | .atIndex p => Sys2Proof.Machine.execAtIndex p s
  | .pushFront v => Sys2Proof.Machine.execPushFront v s
  | .pushBack v => Sys2Proof.Machine.execPushBack v s
  | .emplaceFront v => Sys2Proof.Machine.execEmplaceFront v s
  | .emplaceBack v => Sys2Proof.Machine.execEmplaceBack v s
  | .popFront => Sys2Proof.Machine.execPopFront s
  | .popBack => Sys2Proof.Machine.execPopBack s
  | .reset => Sys2Proof.Machine.execReset s
  | .resize n => Sys2Proof.Machine.execResize n s
  | .iterBegin => Sys2Proof.Machine.execIterBegin s
  | .iterNext => Sys2Proof.Machine.execIterNext s
  | .readCsr c => Sys2Proof.Machine.execReadCsr c s

end Sys2Proof.Machine
end

