-- ==== Sys2Proof/Machine/Ports.lean ====
section
/-! DEFINITION. The engine's ports (30_encoding.md R65 to R69): the response word, the output ports as
functions of the state, the acceptance of a command word, and what one turn of the host does. -/

namespace Sys2Proof.Machine

/-- The 4-bit code of a status (30_encoding.md R76). -/
def statusCode : Status → BitVec 4
  | .ok => 0
  | .noop => 1
  | .endOfSeq => 2
  | .fault => 3
  | .faulted => 4

/-- The response word `{rdata, rval, 0b0000, st}` (30_encoding.md R75). -/
def responseWord (p : Params) (r : Response) : p.Word :=
  packWord p (BitVec.ofNat p.w r.rdata) (BitVec.ofNat p.idxW r.rval) 0 (statusCode r.st)

/-- The bytes that carry a response over a byte-wide transport (20_memory.md R55). -/
def responseBytes (p : Params) (r : Response) : List Byte := bytesOfWord p (responseWord p r)

/-! ### Output ports (30_encoding.md R66) -/

/-- `cmd_ready`: 0 while `rst` = 1 (R190) and while a response has not been taken (R68). -/
def cmdReady (s : State) (turn : PortInputs) : Bool := !turn.rst && s.rsp.isNone

/-- `rsp_valid`: a response is on offer, and none is while `rst` = 1 (R190). -/
def rspValid (s : State) (turn : PortInputs) : Bool := !turn.rst && s.rsp.isSome

/-- `rsp`, the response word on offer in this turn. DESIGN CHOICE: it has no value while `rsp_valid` = 0, so
none in a turn with `rst` = 1 either, also when that turn finds a waiting response (log 3). -/
def rspWord (s : State) (turn : PortInputs) : Option s.params.Word :=
  if rspValid s turn then s.rsp.map (responseWord s.params) else none

/-- `fault_o`, a level equal to `fault` at all times (R66, R69). -/
def faultO (s : State) : Bool := s.fault

/-! ### Input ports -/

/-- `cmd_valid` (R66). -/
def cmdValid (turn : PortInputs) : Bool := turn.cmd.isSome

/-- The command word that arrives when the host drives the number `w`: the port has CW_W wires, so its low
CW_W bits (log 4). -/
def portWord (p : Params) (w : Nat) : p.Word := BitVec.ofNat p.wordWidth w

/-- An accepted command word: the dispatch of 30_encoding.md R80. -/
def acceptWord (w : Nat) (s : State) : Host.Outcome State Fault Refusal :=
  match decode s.params (portWord s.params w) with
  | .ok i => exec i s
  | .error _ => illegalCommand s

/-- One turn of the host: hardware reset while `rst` = 1 (R190, log 6); else, while a response is on offer,
it waits to be taken (R68, log 5); else a command that is offered is accepted and run in this one step (R67);
else the engine is idle and holds all state (60_exceptions.md R181). -/
def hostTurn (turn : PortInputs) (s : State) : Host.Outcome State Fault Refusal :=
  if turn.rst then .next (State.hardwareReset s.params s.inputs)
  else if rspValid s turn then .next (if turn.rspReady then { s with rsp := none } else s)
  else match turn.cmd with
    | none => .next s
    | some w => acceptWord w s

/-- A turn that offers one command word and nothing else. -/
def offer (w : Nat) : PortInputs := { rst := false, cmd := some w, rspReady := false }

/-- A turn that takes the response on offer and nothing else. -/
def takeResponse : PortInputs := { rst := false, cmd := none, rspReady := true }

end Sys2Proof.Machine
end

