-- ==== Sys2Proof/Machine/Step.lean ====
section
/-! DEFINITION. One step of the machine: the next turn of the host, and the engine's step for it. -/

namespace Sys2Proof.Machine

/-- One step. Parameters that break 00_scope.md R10 are refused (92_eei_decisions.md D32). With no host turn
left the engine is idle and holds all state (60_exceptions.md R181). -/
def step (s : State) : Host.Outcome State Fault Refusal :=
  if s.params.Legal then
    match s.inputs with
    | [] => .next s
    | turn :: rest => hostTurn turn { s with inputs := rest }
  else .refused .illegalParameters

/-- `s` with the command of bits `w` offered in the very next turn and no response in its way (log 2). -/
def State.withFetchWord (s : State) (nbits w : Nat) : State :=
  { s with rsp := none, inputs := offer (w % 2 ^ nbits) :: s.inputs }

end Sys2Proof.Machine
end

