-- ==== Sys2Proof/Machine/Asm.lean ====
section
/-! DEFINITION. The assembler of 30_encoding.md R84: one command per line, `;` starts a comment, mnemonics in
upper case, operands decimal or 0x hexadecimal, CSR names as operands of READ_CSR. There are no
pseudo-instructions (R85). -/

namespace Sys2Proof.Machine

/-- Why the assembler rejects a line. Safe: no command comes of it. -/
inductive AsmError where
  /-- The first word of the line is no mnemonic of R84. -/
  | unknownMnemonic
  /-- The line has fewer or more operands than its mnemonic takes. -/
  | operandCount
  /-- The operand is no decimal or 0x hexadecimal number and, for READ_CSR, no CSR name. -/
  | operandForm
  /-- The operand does not fit its field (R84). -/
  | operandRange
deriving DecidableEq, Repr

/-- What a mnemonic takes (R81, R84). -/
inductive OperandKind where
  /-- No operand. -/
  | absent
  /-- An index or a capacity, in IDX. -/
  | index
  /-- An element, in DATA. -/
  | data
  /-- A CSR number or name, in IDX. -/
  | csr
deriving DecidableEq, Repr

/-- The mnemonics of R84 with the opcode of R78 and the operand each takes. -/
def mnemonics : List (List Char × Nat × OperandKind) :=
  [ (['S', 'I', 'Z', 'E'], 0x0, .absent),
    (['F', 'R', 'O', 'N', 'T'], 0x1, .absent),
    (['B', 'A', 'C', 'K'], 0x2, .absent),
    (['A', 'T'], 0x3, .index),
    (['P', 'U', 'S', 'H', '_', 'F', 'R', 'O', 'N', 'T'], 0x4, .data),
    (['P', 'U', 'S', 'H', '_', 'B', 'A', 'C', 'K'], 0x5, .data),
    (['E', 'M', 'P', 'L', 'A', 'C', 'E', '_', 'F', 'R', 'O', 'N', 'T'], 0x6, .data),
    (['E', 'M', 'P', 'L', 'A', 'C', 'E', '_', 'B', 'A', 'C', 'K'], 0x7, .data),
    (['P', 'O', 'P', '_', 'F', 'R', 'O', 'N', 'T'], 0x8, .absent),
    (['P', 'O', 'P', '_', 'B', 'A', 'C', 'K'], 0x9, .absent),
    (['R', 'E', 'S', 'E', 'T'], 0xA, .absent),
    (['R', 'E', 'S', 'I', 'Z', 'E'], 0xB, .index),
    (['I', 'T', 'E', 'R', '_', 'B', 'E', 'G', 'I', 'N'], 0xC, .absent),
    (['I', 'T', 'E', 'R', '_', 'N', 'E', 'X', 'T'], 0xD, .absent),
    (['R', 'E', 'A', 'D', '_', 'C', 'S', 'R'], 0xE, .csr) ]

/-- The CSR names of R84 with their numbers (10_state.md R35). -/
def csrNames : List (List Char × Nat) :=
  [ (['S', 'T', 'A', 'T', 'U', 'S'], 0),
    (['C', 'A', 'P', 'A', 'C', 'I', 'T', 'Y'], 1),
    (['C', 'O', 'U', 'N', 'T'], 2),
    (['F', 'R', 'O', 'N', 'T'], 3),
    (['I', 'T', 'E', 'R', '_', 'P', 'O', 'S'], 4) ]

/-- The line without its comment: all from the first `;` on is dropped (R84). -/
def stripComment : List Char → List Char
  | [] => []
  | c :: cs => if c = ';' then [] else c :: stripComment cs

/-- Spaces, tabs and carriage returns separate the words of a line (log 14). -/
def isBlank (c : Char) : Bool := c == ' ' || c == '\t' || c == '\r'

/-- The words of a line; `word` holds the letters read so far of the word under way, last letter first. -/
def wordsOf (word : List Char) : List Char → List (List Char)
  | [] => if word = [] then [] else [word.reverse]
  | c :: cs =>
    if isBlank c then (if word = [] then wordsOf [] cs else word.reverse :: wordsOf [] cs)
    else wordsOf (c :: word) cs

/-- The value of one digit in base `base`, 10 or 16; hexadecimal letters in either case (log 14). -/
def digitOf (base : Nat) (c : Char) : Option Nat :=
  if '0' ≤ c ∧ c ≤ '9' then some (c.toNat - '0'.toNat)
  else if base = 16 ∧ 'a' ≤ c ∧ c ≤ 'f' then some (c.toNat - 'a'.toNat + 10)
  else if base = 16 ∧ 'A' ≤ c ∧ c ≤ 'F' then some (c.toNat - 'A'.toNat + 10)
  else none

/-- The number that the digits `cs` continue after `acc`; none if one of them is no digit. DESIGN CHOICE: the
`_` that 00_scope.md R13 lets stand inside a literal is no digit of an operand (log 14). -/
def digitsOf (base acc : Nat) : List Char → Option Nat
  | [] => some acc
  | c :: cs =>
    match digitOf base c with
    | some d => digitsOf base (acc * base + d) cs
    | none => none

/-- A decimal or `0x` hexadecimal operand (R84); none if it is neither. -/
def numberOperand (cs : List Char) : Option Nat :=
  match cs with
  | [] => none
  | '0' :: 'x' :: [] => none
  | '0' :: 'x' :: ds => digitsOf 16 0 ds
  | ds => digitsOf 10 0 ds

/-- An operand's value: a number, or for READ_CSR also a CSR name (R84, log 15). -/
def operandValue (kind : OperandKind) (cs : List Char) : Option Nat :=
  if kind = .csr then
    match csrNames.lookup cs with
    | some c => some c
    | none => numberOperand cs
  else numberOperand cs

/-- The command of a mnemonic's opcode and its operand's value, if the value fits its field. -/
def assembleCommand (p : Params) (op v : Nat) : Except AsmError Instr :=
  match instrOf op v v with
  | none => .error .unknownMnemonic
  | some i => if i.wellFormed p then .ok i else .error .operandRange

/-- One line of assembler text (R84): none for a line with no command (log 14). -/
def assembleLine (p : Params) (line : List Char) : Except AsmError (Option Instr) :=
  match wordsOf [] (stripComment line) with
  | [] => .ok none
  | name :: operands =>
    match mnemonics.lookup name with
    | none => .error .unknownMnemonic
    | some (op, .absent) =>
      if operands = [] then (assembleCommand p op 0).map some else .error .operandCount
    | some (op, kind) =>
      match operands with
      | [o] =>
        match operandValue kind o with
        | some v => (assembleCommand p op v).map some
        | none => .error .operandForm
      | _ => .error .operandCount

/-- A program's text, line by line, as the command words the host sends (R84); the first rejected line
rejects it. -/
def assemble (p : Params) : List (List Char) → Except AsmError (List p.Word)
  | [] => .ok []
  | line :: rest =>
    match assembleLine p line with
    | .error e => .error e
    | .ok none => assemble p rest
    | .ok (some i) =>
      match assemble p rest with
      | .error e => .error e
      | .ok ws => .ok (encode p i :: ws)

end Sys2Proof.Machine
end

