-- ==== Sys2Proof/Safety.lean ====
section
/-! DEFINITION. The terms claims about the engine use: the invariant of its states (10_state.md R21 to R33),
what a command leaves unchanged (00_scope.md R18), what an answer or a fault is, a sequence of commands, and
the premises and the end of a run (60_exceptions.md R183 to R185). -/

namespace Sys2Proof.Machine

/-! ### The invariant -/

/-- The count bound (10_state.md R26). -/
abbrev CountBound (s : State) : Prop := s.count ≤ s.capacity

/-- The front bound (10_state.md R27). -/
abbrev FrontBound (s : State) : Prop :=
  (0 < s.capacity → s.frontIndex < s.capacity) ∧ (s.capacity = 0 → s.frontIndex = 0)

/-- The cursor bound while the cursor is valid (10_state.md R30), and the width of a kept position. -/
abbrev CursorBound (s : State) : Prop :=
  (s.iterValid = true → s.iterPos ≤ s.count) ∧ s.iterPos ≤ s.params.capMax

/-- `cause` is written together with `fault` and only then (10_state.md R32, R33). -/
abbrev FaultCoherent (s : State) : Prop := s.fault = true ↔ s.cause ≠ Cause.none

/-- A response on offer fits the fields of the response word (30_encoding.md R75). -/
def responseFits (p : Params) (r : Response) : Bool := decide (r.rval < 2 ^ p.idxW) && decide (r.rdata < 2 ^ p.w)

/-- What holds of every state that hardware reset of a legal engine leads to: legal parameters (00_scope.md
R10), the capacity bound (10_state.md R21), storage in canonical form (R22), R26, R27, R30, R32 with R33, and
a response that fits its word. -/
abbrev State.Inv (s : State) : Prop :=
  s.params.Legal ∧ s.capacity ≤ s.params.capMax ∧ Memory.wf s.params s.capacity s.storage ∧ CountBound s ∧
    FrontBound s ∧ CursorBound s ∧ FaultCoherent s ∧ s.rsp.all (responseFits s.params) = true

/-! ### What stays unchanged (00_scope.md R18) -/

/-- `t` holds the same element as `s` in every slot. -/
abbrev SameSlots (s t : State) : Prop := ∀ a, readSlot t a = readSlot s a

/-- The buffer state of `t` is that of `s`. -/
abbrev SameBuffer (s t : State) : Prop :=
  t.capacity = s.capacity ∧ t.storage = s.storage ∧ t.frontIndex = s.frontIndex ∧ t.count = s.count ∧ SameSlots s t

/-- The cursor state of `t` is that of `s`. -/
abbrev SameCursor (s t : State) : Prop := t.iterValid = s.iterValid ∧ t.iterPos = s.iterPos

/-- The fault state of `t` is that of `s`. -/
abbrev SameFault (s t : State) : Prop := t.fault = s.fault ∧ t.cause = s.cause

/-- The parameters of `t` and the turns its host has left are those of `s`. -/
abbrev SameHost (s t : State) : Prop := t.params = s.params ∧ t.inputs = s.inputs

/-- A mutating command has run: fault state and host are as before, the cursor is invalidated and keeps its
position (44_iteration.md R142, 10_state.md R30). -/
abbrev MutatedFrame (s t : State) : Prop :=
  t.iterValid = false ∧ t.iterPos = s.iterPos ∧ SameFault s t ∧ SameHost s t

/-! ### Answers -/

/-- The outcome `o` is the next state `t`, which offers this response. -/
abbrev Answers (o : Host.Outcome State Fault Refusal) (st : Status) (rval : Nat) (rdata : Nat) (t : State) : Prop :=
  o = .next t ∧ t.rsp = some { st := st, rval := rval, rdata := rdata }

/-- From `s` the outcome `o` is an answer that changes nothing but the response port. -/
abbrev OnlyAnswers (o : Host.Outcome State Fault Refusal) (s : State) (st : Status) (rval : Nat) (rdata : Nat) : Prop :=
  ∃ t, Answers o st rval rdata t ∧ SameBuffer s t ∧ SameCursor s t ∧ SameFault s t ∧ SameHost s t

/-- From `s` the outcome `o` is the fault entry of 60_exceptions.md R166 with cause `c`, whose code is `n`. -/
abbrev TakesFault (o : Host.Outcome State Fault Refusal) (s : State) (c : Cause) (n : Nat) : Prop :=
  ∃ t, Answers o .fault n 0 t ∧ t.fault = true ∧ t.cause = c ∧ faultO t = true ∧
    SameBuffer s t ∧ SameCursor s t ∧ SameHost s t

/-- From `s` the outcome `o` is the NOOP of a capacity-0 engine (10_state.md R28). -/
abbrev AnswersNoop (o : Host.Outcome State Fault Refusal) (s : State) : Prop :=
  ∃ t, Answers o .noop 0 0 t ∧ SameBuffer s t ∧ MutatedFrame s t

/-- The command `i` is encoded with these fields, RSV = 0, in every engine (30_encoding.md R70, R78). -/
abbrev EncodedWith (i : Instr) (op : BitVec 4) (idx : Nat) (data : Nat) : Prop :=
  ∀ p : Params, encode p i = packWord p (BitVec.ofNat p.w data) (BitVec.ofNat p.idxW idx) 0 op

/-! ### Command sets -/

/-- The mutating commands (00_scope.md R18). -/
def mutating : Instr → Bool
  | .size => false
  | .front => false
  | .back => false
  | .atIndex _ => false
  | .pushFront _ => true
  | .pushBack _ => true
  | .emplaceFront _ => true
  | .emplaceBack _ => true
  | .popFront => true
  | .popBack => true
  | .reset => true
  | .resize _ => true
  | .iterBegin => false
  | .iterNext => false
  | .readCsr _ => false

/-- The one cause a command can raise itself (60_exceptions.md R161, R171). -/
def ownCause : Instr → Cause
  | .size => .none
  | .front => .emptyAccess
  | .back => .emptyAccess
  | .atIndex _ => .indexRange
  | .pushFront _ => .none
  | .pushBack _ => .none
  | .emplaceFront _ => .none
  | .emplaceBack _ => .none
  | .popFront => .emptyAccess
  | .popBack => .emptyAccess
  | .reset => .none
  | .resize _ => .resizeCapacity
  | .iterBegin => .none
  | .iterNext => .iterInvalid
  | .readCsr _ => .illegalCsr

/-- When the command raises its own cause in an engine that is not FAULTED (60_exceptions.md R161). -/
def raisesOwnCause (s : State) : Instr → Bool
  | .size => false
  | .front => s.count == 0
  | .back => s.count == 0
  | .atIndex i => decide (s.count ≤ i)
  | .pushFront _ => false
  | .pushBack _ => false
  | .emplaceFront _ => false
  | .emplaceBack _ => false
  | .popFront => decide (0 < s.capacity) && s.count == 0
  | .popBack => decide (0 < s.capacity) && s.count == 0
  | .reset => false
  | .resize n => decide (s.params.capMax < n)
  | .iterBegin => false
  | .iterNext => !s.iterValid
  | .readCsr c => decide (5 ≤ c)

/-- The host meets its duties for this command (60_exceptions.md R183), RESIZE kept within CAP_MAX and the
CSR number legal. -/
def dutyMet (s : State) : Instr → Bool
  | .size => true
  | .front => decide (0 < s.count)
  | .back => decide (0 < s.count)
  | .atIndex i => decide (i < s.count)
  | .pushFront _ => true
  | .pushBack _ => true
  | .emplaceFront _ => true
  | .emplaceBack _ => true
  | .popFront => decide (0 < s.count)
  | .popBack => decide (0 < s.count)
  | .reset => true
  | .resize n => decide (n ≤ s.params.capMax)
  | .iterBegin => true
  | .iterNext => s.iterValid
  | .readCsr c => decide (c < 5)

/-! ### Sequences of commands -/

/-- The responses to a sequence of commands whose responses the host takes one by one (30_encoding.md R67,
R68), and the state after it; none if the model stops. -/
def answers : List Instr → State → Option (List Response × State)
  | [], s => some ([], s)
  | i :: is, s =>
    match exec i s with
    | .next t =>
      match t.rsp with
      | some r => (answers is { t with rsp := none }).map (fun a => (r :: a.1, a.2))
      | none => none
    | .fault _ => none
    | .refused _ => none

/-- The host meets its duties (60_exceptions.md R183) at every command of the sequence, in the state that the
command finds. -/
def dutiesMet : List Instr → State → Bool
  | [], _ => true
  | i :: is, s =>
    dutyMet s i &&
      match exec i s with
      | .next t => dutiesMet is { t with rsp := none }
      | .fault _ => false
      | .refused _ => false

/-- The host's turns that send these commands, each followed by the turn that takes its response (R68). -/
def turnsOf (p : Params) (is : List Instr) : List PortInputs :=
  is.flatMap (fun i => [offer (encode p i).toNat, takeResponse])

/-! ### Runs -/

/-- Every command word that the host offers in these turns has RSV = 0 (60_exceptions.md R185). -/
abbrev RsvClear (p : Params) (turns : List PortInputs) : Prop :=
  ∀ turn ∈ turns, ∀ w ∈ turn.cmd, rsvField p (portWord p w) = 0

/-- The premises of a run from a stated state (60_exceptions.md R185): legal parameters, 10_state.md R26, R27
and R28, fault = 0, and RSV = 0 in every command word. -/
abbrev LaunchPremises (s : State) : Prop :=
  s.params.Legal ∧ CountBound s ∧ FrontBound s ∧ (s.capacity = 0 → s.count = 0) ∧ s.fault = false ∧
    RsvClear s.params s.inputs

/-- The response word that the host takes in the next turn, as a number: the one on the `rsp` port while
`rsp_valid` = 1 and `rsp_ready` = 1 (30_encoding.md R68). -/
def takenWord (s : State) : Option Nat :=
  match s.inputs with
  | [] => none
  | turn :: _ => if turn.rspReady then (rspWord s turn).map BitVec.toNat else none

/-- The response words that the host takes over the ports in the next `k` turns, in order. -/
def takenWords : Nat → State → List Nat
  | 0, _ => []
  | k + 1, s =>
    (takenWord s).toList ++
      match step s with
      | .next t => takenWords k t
      | .fault _ => []
      | .refused _ => []

/-- The end of a run (60_exceptions.md R184): every turn is over, the last response has been taken, and
fault = 0. -/
abbrev EndedNormally (s : State) : Prop := s.inputs = [] ∧ s.rsp = none ∧ s.fault = false

end Sys2Proof.Machine
end

