-- ==== Sys2Proof/Certificates/Slice0/Obligations.lean ====
section
/-! DEFINITION. The statements for the provers, from the numbered rules of spec/. Each says which rule it
formalises; OBLIGATIONS.json lists them with their quotes. -/

open Sys2Proof Sys2Proof.Machine

/-! ### Encoding (30_encoding.md) -/

/-- Decoding an encoded command gives it back, for every command that fits the word of the engine, whatever
the widths (30_encoding.md R70, R78, R84). -/
def Obligations.DecodeEncodeRoundTrip : Prop :=
  ∀ (p : Params) (i : Instr), i.WellFormed p → decode p (encode p i) = .ok i

/-- A command survives a byte-wide transport: as many bytes as one word has, byte k being bits [8k+7:8k] of
the word, decode to the command (20_memory.md R55). -/
def Obligations.BytesCarryCommandWords : Prop :=
  ∀ (p : Params) (i : Instr), i.WellFormed p →
    decodeBytes p (encodeBytes p i) = .ok i ∧ (encodeBytes p i).length = p.wordBytes ∧
    ∀ k, k < p.wordBytes → (encodeBytes p i)[k]? = some ((encode p i).extractLsb' (8 * k) 8)

/-- The decoder rejects exactly the words with RSV ≠ 0 or OP = 0xF (30_encoding.md R72, R79). -/
def Obligations.DecoderRejectsExactlyRsvOrOpF : Prop :=
  ∀ (p : Params) (w : p.Word),
    (∃ e, decode p w = .error e) ↔ (rsvField p w ≠ 0 ∨ opField p w = 0xF)

/-- Two words with the same OP and RSV that agree on IDX where the command uses it (AT, RESIZE, READ_CSR) and
on DATA where it uses it (the pushes and emplaces) give the same outcome from every state (30_encoding.md
R73, R74, R81). -/
def Obligations.UnusedFieldsAreIgnored : Prop :=
  ∀ (s : State) (v v' : s.params.Word),
    opField s.params v = opField s.params v' → rsvField s.params v = rsvField s.params v' →
    (opField s.params v ∈ [(0x3 : BitVec 4), 0xB, 0xE] → idxField s.params v = idxField s.params v') →
    (opField s.params v ∈ [(0x4 : BitVec 4), 0x5, 0x6, 0x7] → dataField s.params v = dataField s.params v') →
    acceptWord v.toNat s = acceptWord v'.toNat s

/-- Every decoded command fits the word it came from (30_encoding.md R70, R73, R74). -/
def Obligations.DecodedCommandsFitTheirFields : Prop :=
  ∀ (p : Params) (w : p.Word) (i : Instr), decode p w = .ok i → i.WellFormed p

/-- Words written out from the encoding of 30_encoding.md R70 and R78 in configuration EX (R86) decode to the
commands they stand for. -/
def Obligations.WrittenOutWordsDecode : Prop :=
  decode Config.ex 0x000000000000000000 = .ok .size ∧
  decode Config.ex 0x000000000000000203 = .ok (.atIndex 2) ∧
  decode Config.ex 0x000000090000000004 = .ok (.pushFront 9) ∧
  decode Config.ex 0xDEADBEEF0000000006 = .ok (.emplaceFront 0xDEADBEEF) ∧
  decode Config.ex 0x000000000000000009 = .ok .popBack ∧
  decode Config.ex 0x00000000000000030B = .ok (.resize 3) ∧
  decode Config.ex 0x00000000000000000D = .ok .iterNext ∧
  decode Config.ex 0x00000000000000010E = .ok (.readCsr 1) ∧
  decode Config.ex 0x00000000000000000F = .error .illegalOpcode ∧
  decode Config.ex 0x000000000000000010 = .error .reservedField

/-- The response word: ST in bits [3:0], zeros in [7:4], RVAL in [IDX_W+7:8], RDATA above it (30_encoding.md
R75); the codes of ST are OK 0, NOOP 1, END 2, FAULT 3, FAULTED 4, and 5 to 15 are never produced (R76). -/
def Obligations.ResponseWordLayout : Prop :=
  (statusCode .ok = 0 ∧ statusCode .noop = 1 ∧ statusCode .endOfSeq = 2 ∧ statusCode .fault = 3 ∧
    statusCode .faulted = 4 ∧ ∀ st, (statusCode st).toNat ≤ 4) ∧
  ∀ (p : Params) (r : Response), responseFits p r = true →
    (responseWord p r).extractLsb' 0 4 = statusCode r.st ∧ (responseWord p r).extractLsb' 4 4 = 0#4 ∧
    ((responseWord p r).extractLsb' 8 p.idxW).toNat = r.rval ∧
    ((responseWord p r).extractLsb' (p.idxW + 8) p.w).toNat = r.rdata

/-- What the assembler accepts fits its field. A line of a mnemonic and its operand gives the command of that
opcode with the operand's value whole in its field, if it fits there, and is rejected if it does not
(30_encoding.md R84). That this holds of READ_CSR with a number of 5 and above too is the model's reading (log
15). -/
def Obligations.AssembledOperandsFit : Prop :=
  ∀ (p : Params) (line : List Char),
    (∀ i, assembleLine p line = .ok (some i) → i.WellFormed p) ∧
    ∀ name operand op kind v,
      wordsOf [] (stripComment line) = [name, operand] → mnemonics.lookup name = some (op, kind) →
      kind ≠ .absent → operandValue kind operand = some v →
      (v < 2 ^ (if kind = .data then p.w else p.idxW) →
        ∃ i, assembleLine p line = .ok (some i) ∧ opcodeOf i = BitVec.ofNat 4 op ∧
          (if kind = .data then dataOf i else idxOf i) = v) ∧
      (2 ^ (if kind = .data then p.w else p.idxW) ≤ v → assembleLine p line = .error .operandRange)

/-- The encoding examples of 30_encoding.md R86 in configuration EX: each line of assembly and its word. -/
def Obligations.EncodingExamplesOfTheSpec : Prop :=
  assemble Config.ex
    [ ['S', 'I', 'Z', 'E'], ['F', 'R', 'O', 'N', 'T'], ['B', 'A', 'C', 'K'], ['A', 'T', ' ', '2'],
      ['P', 'U', 'S', 'H', '_', 'F', 'R', 'O', 'N', 'T', ' ', '9'],
      ['P', 'U', 'S', 'H', '_', 'B', 'A', 'C', 'K', ' ', '1'],
      ['E', 'M', 'P', 'L', 'A', 'C', 'E', '_', 'F', 'R', 'O', 'N', 'T', ' ', '0', 'x', 'D', 'E', 'A', 'D', 'B', 'E', 'E', 'F'],
      ['E', 'M', 'P', 'L', 'A', 'C', 'E', '_', 'B', 'A', 'C', 'K', ' ', '7'],
      ['P', 'O', 'P', '_', 'F', 'R', 'O', 'N', 'T'], ['P', 'O', 'P', '_', 'B', 'A', 'C', 'K'],
      ['R', 'E', 'S', 'E', 'T'], ['R', 'E', 'S', 'I', 'Z', 'E', ' ', '3'],
      ['I', 'T', 'E', 'R', '_', 'B', 'E', 'G', 'I', 'N'], ['I', 'T', 'E', 'R', '_', 'N', 'E', 'X', 'T'],
      ['R', 'E', 'A', 'D', '_', 'C', 'S', 'R', ' ', 'S', 'T', 'A', 'T', 'U', 'S'],
      ['R', 'E', 'A', 'D', '_', 'C', 'S', 'R', ' ', 'C', 'A', 'P', 'A', 'C', 'I', 'T', 'Y'] ] =
  .ok
    [ 0x000000000000000000, 0x000000000000000001, 0x000000000000000002, 0x000000000000000203,
      0x000000090000000004,
      0x000000010000000005,
      0xDEADBEEF0000000006,
      0x000000070000000007,
      0x000000000000000008, 0x000000000000000009,
      0x00000000000000000A, 0x00000000000000030B,
      0x00000000000000000C, 0x00000000000000000D,
      0x00000000000000000E,
      0x00000000000000010E ]

/-! ### Dispatch, ports and reset (30_encoding.md, 60_exceptions.md, 70_reset_and_hazards.md) -/

/-- A step runs the decoded command: when the engine is ready and the turn offers a word, the step is the
dispatch of that word, and if the word decodes to `i`, it is `exec i`; the turn is used up (30_encoding.md R67,
R80). The turn is the model's form of the ports (log 2). -/
def Obligations.StepRunsTheDecodedCommand : Prop :=
  ∀ (s : State) (turn : PortInputs) (rest : List PortInputs) (w : Nat),
    s.params.Legal → s.inputs = turn :: rest → cmdReady s turn = true → turn.cmd = some w →
    step s = acceptWord w { s with inputs := rest } ∧
    ∀ i, decode s.params (portWord s.params w) = .ok i → step s = exec i { s with inputs := rest }

/-- ILLEGAL_COMMAND: a command word with RSV ≠ 0 or OP = 0xF takes the fault with cause 5, before any command
rule runs (60_exceptions.md R167), in an engine that is not FAULTED. -/
def Obligations.IllegalWordsRaiseIllegalCommand : Prop :=
  ∀ (s : State) (w : s.params.Word), s.fault = false → (rsvField s.params w ≠ 0 ∨ opField s.params w = 0xF) →
    TakesFault (acceptWord w.toNat s) s .illegalCommand 5

/-- FAULTED: every accepted word but a READ_CSR with RSV = 0 and IDX < 5 answers FAULTED and changes no state;
that READ_CSR is executed: it answers OK with the CSR's value and changes no state either. In both cases
`cause` keeps the first cause. The state is no normal end of a run (60_exceptions.md R170). -/
def Obligations.FaultedEngineOnlyReadsCsrs : Prop :=
  ∀ (s : State) (w : s.params.Word), s.fault = true →
    (¬ (rsvField s.params w = 0 ∧ opField s.params w = 0xE ∧ (idxField s.params w).toNat < 5) →
      OnlyAnswers (acceptWord w.toNat s) s .faulted 0 0) ∧
    ((rsvField s.params w = 0 ∧ opField s.params w = 0xE ∧ (idxField s.params w).toNat < 5) →
      ∃ r, csrOf (idxField s.params w).toNat = some r ∧
        OnlyAnswers (acceptWord w.toNat s) s .ok (csrValue s r) 0) ∧
    ¬ EndedNormally s

/-- While `rst` = 1 the engine accepts no command and offers no response, and the step leaves the state of
10_state.md R44, with `fault_o` = 0; a response on offer is gone (70_reset_and_hazards.md R190). That the
state is there in the turn with `rst` = 1 already is the model's choice (log 6). -/
def Obligations.HardwareResetTurn : Prop :=
  ∀ (s : State) (turn : PortInputs) (rest : List PortInputs),
    s.params.Legal → s.inputs = turn :: rest → turn.rst = true →
    cmdReady s turn = false ∧ rspValid s turn = false ∧
    ∃ t, step s = .next t ∧ t.capacity = s.params.capInit ∧ (∀ a, readSlot t a = s.params.defaultValue) ∧
      t.frontIndex = 0 ∧ t.count = 0 ∧ t.iterValid = false ∧ t.iterPos = 0 ∧ t.fault = false ∧
      t.cause = Cause.none ∧ t.rsp = none ∧ faultO t = false ∧ t.params = s.params ∧ t.inputs = rest

/-- The response port: while a response is on offer no command is accepted, and the step changes nothing but
that the response goes when the host takes it (30_encoding.md R68). That the turn that takes it accepts no
command is the model's reading (log 5). -/
def Obligations.ResponseBlocksUntilTaken : Prop :=
  ∀ (s : State) (turn : PortInputs) (rest : List PortInputs),
    s.params.Legal → s.inputs = turn :: rest → rspValid s turn = true →
    cmdReady s turn = false ∧
    ∃ t, step s = .next t ∧ t.rsp = (if turn.rspReady then none else s.rsp) ∧
      SameBuffer s t ∧ SameCursor s t ∧ SameFault s t ∧ t.params = s.params ∧ t.inputs = rest

/-- With no command offered and no response waiting the engine is idle and holds all state (60_exceptions.md
R181), also when the host has no turn left (log 2). -/
def Obligations.IdleEngineHoldsItsState : Prop :=
  ∀ (s : State), s.params.Legal →
    (s.inputs = [] → step s = .next s) ∧
    (∀ turn rest, s.inputs = turn :: rest → cmdReady s turn = true → turn.cmd = none →
      step s = .next { s with inputs := rest })

/-- Parameters that break the bounds of 00_scope.md R10 are refused, and no rule is applied (92_eei_decisions.md
D32; the refusal is the model's form, log 10). -/
def Obligations.IllegalParametersAreRefused : Prop :=
  ∀ (s : State), ¬ s.params.Legal → step s = .refused .illegalParameters

/-- The reset state of 10_state.md R44, with STATUS 0x40, or 0xC0 at CAP_INIT = 0. -/
def Obligations.HardwareResetValues : Prop :=
  ∀ (p : Params) (turns : List PortInputs), p.Legal →
    (State.hardwareReset p turns).capacity = p.capInit ∧
    (∀ a, a < p.capInit → memRead (State.hardwareReset p turns) a = .ok p.defaultValue) ∧
    (State.hardwareReset p turns).frontIndex = 0 ∧ (State.hardwareReset p turns).count = 0 ∧
    (State.hardwareReset p turns).iterValid = false ∧ (State.hardwareReset p turns).iterPos = 0 ∧
    (State.hardwareReset p turns).fault = false ∧ (State.hardwareReset p turns).cause = Cause.none ∧
    causeCode (State.hardwareReset p turns).cause = 0 ∧
    csrValue (State.hardwareReset p turns) .status = (if p.capInit = 0 then 0xC0 else 0x40)

/-- The invariant holds at hardware reset of every legal engine, and so do the launch premises of
60_exceptions.md R185 when every command word the host offers has RSV = 0, as every encoded command has. So the
invariant holds at State.reset, whose configuration EX is the model's choice (log 1). -/
def Obligations.ResetMeetsTheInvariant : Prop :=
  (∀ (p : Params) (turns : List PortInputs), p.Legal →
    (State.hardwareReset p turns).Inv ∧ (RsvClear p turns → LaunchPremises (State.hardwareReset p turns))) ∧
  (∀ (p : Params) (is : List Instr), p.Legal → LaunchPremises (State.hardwareReset p (turnsOf p is))) ∧
  State.reset.Inv

/-- HEADLINE. Every step keeps the invariant: legal parameters, capacity at most CAP_MAX, storage in canonical
form, the count bound (10_state.md R26), the front bound (R27), the cursor bound (R30), fault with its cause
(R32, R33), a response that fits its word. -/
def Obligations.EveryStepKeepsTheInvariant : Prop :=
  ∀ (s t : State), s.Inv → step s = .next t → t.Inv

/-- Every command of every state that meets the invariant answers: no command reaches a slot outside
[0, capacity), so none stops the model (20_memory.md R47; 30_encoding.md R67). -/
def Obligations.EveryCommandAnswers : Prop :=
  ∀ (s : State) (i : Instr), s.Inv → ∃ t r, exec i s = .next t ∧ t.rsp = some r

/-- Every accepted command word, legal or not, FAULTED or not, gets a response in the step that accepts it: the
response is on the ports in the next turn without `rst`, and no turn is ready (30_encoding.md R67, R68,
70_reset_and_hazards.md R201). The turns are the model's form of the ports (log 2); that the turn that takes the
response is not ready either is the model's reading (log 5). -/
def Obligations.EveryAcceptedWordIsAnswered : Prop :=
  ∀ (s : State) (turn : PortInputs) (rest : List PortInputs) (w : Nat),
    s.Inv → s.inputs = turn :: rest → cmdReady s turn = true → turn.cmd = some w →
    ∃ t r, step s = .next t ∧ t.rsp = some r ∧ t.inputs = rest ∧
      (∀ next, next.rst = false → rspValid t next = true ∧ rspWord t next = some (responseWord t.params r)) ∧
      ∀ next, cmdReady t next = false

/-- The ports run commands: sending a sequence of commands over the ports, each response taken before the next
command, is running them one after another as atomic steps, and the words the host takes are their responses in
command order (00_scope.md R16, 20_memory.md R61, 30_encoding.md R67, R68). The turns are the model's form of the
ports (log 2). -/
def Obligations.PortTurnsRunCommandsInOrder : Prop :=
  ∀ (is : List Instr) (s : State), s.Inv → s.rsp = none → (∀ i ∈ is, i.WellFormed s.params) →
    ∃ rs t, answers is { s with inputs := [] } = some (rs, t) ∧ rs.length = is.length ∧
      core.run (2 * is.length) { s with inputs := turnsOf s.params is } = .next t ∧
      takenWords (2 * is.length) { s with inputs := turnsOf s.params is } =
        rs.map (fun r => (responseWord s.params r).toNat)

/-- HEADLINE. A fault is for ever but for hardware reset: whatever the host sends without `rst`, after any
number of steps the engine is FAULTED with its first cause, buffer and cursor are as they were, and no run ends
normally (10_state.md R32, R33; 60_exceptions.md R170, R172, R184; 70_reset_and_hazards.md R192). -/
def Obligations.FaultIsStickyUntilHardwareReset : Prop :=
  ∀ (k : Nat) (s : State), s.Inv → s.fault = true → (∀ turn ∈ s.inputs, turn.rst = false) →
    ∃ t, core.run k s = .next t ∧ t.fault = true ∧ t.cause = s.cause ∧ SameBuffer s t ∧ SameCursor s t ∧
      ¬ EndedNormally t

/-- No step changes the parameters, and every step uses up one turn of the host (00_scope.md R10; the turns
are the model's, log 2). -/
def Obligations.StepsKeepParametersAndUseOneTurn : Prop :=
  ∀ (s t : State), step s = .next t → t.params = s.params ∧ t.inputs = s.inputs.tail

/-! ### Who writes what (10_state.md) -/

/-- `capacity` is written by RESIZE alone among the commands, with its operand (10_state.md R21). -/
def Obligations.OnlyResizeWritesCapacity : Prop :=
  ∀ (s t : State) (i : Instr), exec i s = .next t → t.capacity ≠ s.capacity →
    i = .resize t.capacity ∧ t.capacity ≤ s.params.capMax

/-- Storage is written by the pushes, the emplaces and RESIZE alone: every slot reads as before after any other
command, and so does every slot after a command that faults (10_state.md R22, 20_memory.md R49). -/
def Obligations.OnlyInsertionAndResizeWriteStorage : Prop :=
  ∀ (s t : State) (i : Instr), exec i s = .next t →
    ((∃ v, i = .pushFront v) ∨ (∃ v, i = .pushBack v) ∨ (∃ v, i = .emplaceFront v) ∨ (∃ v, i = .emplaceBack v) ∨
      (∃ n, i = .resize n)) ∧ t.fault = false ∨
    t.storage = s.storage ∧ SameSlots s t

/-- A command raises at most its own cause, exactly when the condition of 60_exceptions.md R161 holds, and its
answer then is FAULT with the cause code; else the engine goes on without a fault (R171). -/
def Obligations.CommandsRaiseExactlyTheirOwnCause : Prop :=
  ∀ (s : State) (i : Instr), s.Inv → s.fault = false →
    (raisesOwnCause s i = true → TakesFault (exec i s) s (ownCause i) (causeCode (ownCause i)).toNat) ∧
    (raisesOwnCause s i = false → ∃ t, exec i s = .next t ∧ t.fault = false ∧ t.cause = Cause.none)

/-- A host that meets its duties at every command, keeps RESIZE within CAP_MAX and reads legal CSRs never sees
a fault: every response is OK, NOOP or END (60_exceptions.md R183). -/
def Obligations.DutifulHostsSeeNoFault : Prop :=
  ∀ (is : List Instr) (s : State), s.Inv → s.fault = false → (∀ i ∈ is, i.WellFormed s.params) → dutiesMet is s = true →
    ∃ rs t, answers is s = some (rs, t) ∧ t.fault = false ∧
      ∀ r ∈ rs, r.st ≠ .fault ∧ r.st ≠ .faulted

/-! ### Index arithmetic (20_memory.md) -/

/-- The laws of the index arithmetic (20_memory.md R54), at positions and indices in range. -/
def Obligations.IndexArithmeticLaws : Prop :=
  ∀ (s : State), 0 < s.capacity → s.frontIndex < s.capacity → s.count ≤ s.capacity →
    (∀ i, i < s.capacity → moduloDec s.capacity (moduloInc s.capacity i) = i ∧
      moduloInc s.capacity (moduloDec s.capacity i) = i) ∧
    slot s 0 = s.frontIndex ∧ slot s s.capacity = s.frontIndex ∧
    ∀ p, p ≤ s.capacity →
      slot s p < s.capacity ∧
      (moduloInc s.capacity s.frontIndex + p) % s.capacity = slot s (p + 1) ∧
      (moduloDec s.capacity s.frontIndex + p + 1) % s.capacity = slot s p

/-- The two wraparound functions and Slot by cases, with results in [0, capacity) (20_memory.md R50, R51,
R52). -/
def Obligations.IndexArithmeticByCases : Prop :=
  ∀ (s : State) (i p : Nat), i < s.capacity → s.frontIndex < s.capacity → p ≤ s.count → s.count ≤ s.capacity →
    moduloInc s.capacity i = (i + 1) % s.capacity ∧
    moduloInc s.capacity i = (if i + 1 < s.capacity then i + 1 else 0) ∧ moduloInc s.capacity i < s.capacity ∧
    moduloDec s.capacity i = (if i = 0 then s.capacity - 1 else i - 1) ∧ moduloDec s.capacity i < s.capacity ∧
    slot s p = (s.frontIndex + p) % s.capacity ∧ s.frontIndex + p < 2 * s.capacity ∧
    slot s p = (if s.frontIndex + p < s.capacity then s.frontIndex + p else s.frontIndex + p - s.capacity)

/-! ### Size and element access (40_access.md) -/

/-- SIZE answers count and changes nothing (40_access.md R100). -/
def Obligations.SizeAnswersCount : Prop :=
  EncodedWith .size 0x0 0 0 ∧
  ∀ (s : State), s.fault = false → OnlyAnswers (exec .size s) s .ok s.count 0

/-- FRONT answers the element at logical position 0 and changes nothing; on an empty buffer it takes
EMPTY_ACCESS (40_access.md R101). -/
def Obligations.FrontAnswersFirstElement : Prop :=
  EncodedWith .front 0x1 0 0 ∧
  ∀ (s : State), s.Inv → s.fault = false →
    (s.count = 0 → TakesFault (exec .front s) s .emptyAccess 1) ∧
    (0 < s.count → OnlyAnswers (exec .front s) s .ok 0 (readSlot s s.frontIndex) ∧
      (contents s)[0]? = some (readSlot s s.frontIndex))

/-- BACK answers the element at logical position count-1 and changes nothing; on an empty buffer it takes
EMPTY_ACCESS (40_access.md R102). -/
def Obligations.BackAnswersLastElement : Prop :=
  EncodedWith .back 0x2 0 0 ∧
  ∀ (s : State), s.Inv → s.fault = false →
    (s.count = 0 → TakesFault (exec .back s) s .emptyAccess 1) ∧
    (0 < s.count →
      OnlyAnswers (exec .back s) s .ok (s.count - 1) (readSlot s (slot s (s.count - 1))) ∧
      (contents s)[s.count - 1]? = some (readSlot s (slot s (s.count - 1))))

/-- AT i answers the element at logical position i and changes nothing; outside the live elements it takes
INDEX_RANGE (40_access.md R103). -/
def Obligations.AtAnswersIndexedElement : Prop :=
  (∀ i, EncodedWith (.atIndex i) 0x3 i 0) ∧
  ∀ (s : State) (i : Nat), s.Inv → s.fault = false →
    (s.count ≤ i → TakesFault (exec (.atIndex i) s) s .indexRange 2) ∧
    (i < s.count → OnlyAnswers (exec (.atIndex i) s) s .ok i (readSlot s (slot s i)) ∧
      (contents s)[i]? = some (readSlot s (slot s i)))

/-! ### Insertion (41_insertion.md) -/

/-- PUSH_FRONT v and EMPLACE_FRONT v: NOOP at capacity 0; else front_index steps back (wrapping), that slot
takes v and every other slot keeps its element, count grows unless the buffer is full, v leads the contents,
and the answer is the new count (41_insertion.md R110, R112). -/
def Obligations.FrontInsertionWritesOneSlot : Prop :=
  (∀ v, EncodedWith (.pushFront v) 0x4 0 v ∧ EncodedWith (.emplaceFront v) 0x6 0 v) ∧
  ∀ (s : State) (v : Nat) (i : Instr), s.Inv → s.fault = false →
    (i = .pushFront v ∨ i = .emplaceFront v) →
    (s.capacity = 0 → AnswersNoop (exec i s) s) ∧
    (0 < s.capacity → ∃ t, Answers (exec i s) .ok t.count 0 t ∧
      t.frontIndex = moduloDec s.capacity s.frontIndex ∧
      t.count = (if s.count < s.capacity then s.count + 1 else s.count) ∧ t.capacity = s.capacity ∧
      readSlot t (moduloDec s.capacity s.frontIndex) = v ∧
      (∀ a, a ≠ moduloDec s.capacity s.frontIndex → readSlot t a = readSlot s a) ∧
      contents t = v :: (if s.count < s.capacity then contents s else (contents s).dropLast) ∧
      emptyFlag t = false ∧ MutatedFrame s t)

/-- PUSH_BACK v and EMPLACE_BACK v: NOOP at capacity 0; else Slot(count) takes v and every other slot keeps
its element; count grows, or, when the buffer is full, front_index advances (wrapping); v ends the contents,
and the answer is the new count (41_insertion.md R111, R113). -/
def Obligations.BackInsertionWritesOneSlot : Prop :=
  (∀ v, EncodedWith (.pushBack v) 0x5 0 v ∧ EncodedWith (.emplaceBack v) 0x7 0 v) ∧
  ∀ (s : State) (v : Nat) (i : Instr), s.Inv → s.fault = false →
    (i = .pushBack v ∨ i = .emplaceBack v) →
    (s.capacity = 0 → AnswersNoop (exec i s) s) ∧
    (0 < s.capacity → ∃ t, Answers (exec i s) .ok t.count 0 t ∧
      (s.count < s.capacity → t.count = s.count + 1 ∧ t.frontIndex = s.frontIndex) ∧
      (s.count = s.capacity → t.count = s.count ∧ t.frontIndex = moduloInc s.capacity s.frontIndex) ∧
      t.capacity = s.capacity ∧ readSlot t (slot s s.count) = v ∧
      (∀ a, a ≠ slot s s.count → readSlot t a = readSlot s a) ∧
      contents t = (if s.count < s.capacity then contents s else (contents s).tail) ++ [v] ∧
      emptyFlag t = false ∧ MutatedFrame s t)

/-- The overwrite law (41_insertion.md R114): below capacity a push adds its element at its end; at
capacity it adds it and evicts exactly the element at the opposite end. -/
def Obligations.OverwriteLaw : Prop :=
  ∀ (s : State) (v : Nat), s.Inv → s.fault = false → 0 < s.capacity →
    (s.count < s.capacity →
      (∃ t, exec (.pushBack v) s = .next t ∧ contents t = contents s ++ [v] ∧ t.count = s.count + 1) ∧
      (∃ t, exec (.pushFront v) s = .next t ∧ contents t = v :: contents s ∧ t.count = s.count + 1)) ∧
    (s.count = s.capacity →
      (∃ t, exec (.pushBack v) s = .next t ∧ contents t = (contents s).tail ++ [v] ∧ t.count = s.capacity) ∧
      (∃ t, exec (.pushFront v) s = .next t ∧ contents t = v :: (contents s).dropLast ∧ t.count = s.capacity))

/-- The emplace commands are the pushes: the same next state and the same response from every state
(41_insertion.md R112, R113). -/
def Obligations.EmplaceIsPush : Prop :=
  ∀ (s : State) (v : Nat),
    exec (.emplaceFront v) s = exec (.pushFront v) s ∧ exec (.emplaceBack v) s = exec (.pushBack v) s

/-! ### Removal (42_removal.md) -/

/-- POP_FRONT: NOOP at capacity 0; EMPTY_ACCESS on an empty buffer; else it answers the new count and the front
element, which leaves the contents; front_index advances, and no slot is written (42_removal.md R120). -/
def Obligations.PopFrontRemovesFirstElement : Prop :=
  EncodedWith .popFront 0x8 0 0 ∧
  ∀ (s : State), s.Inv → s.fault = false →
    (s.capacity = 0 → AnswersNoop (exec .popFront s) s) ∧
    (0 < s.capacity → s.count = 0 → TakesFault (exec .popFront s) s .emptyAccess 1) ∧
    (0 < s.count → ∃ t, Answers (exec .popFront s) .ok (s.count - 1) (readSlot s s.frontIndex) t ∧
      t.count = s.count - 1 ∧ t.frontIndex = moduloInc s.capacity s.frontIndex ∧ t.capacity = s.capacity ∧
      t.storage = s.storage ∧ SameSlots s t ∧ contents s = readSlot s s.frontIndex :: contents t ∧
      fullFlag t = false ∧ MutatedFrame s t)

/-- POP_BACK: NOOP at capacity 0; EMPTY_ACCESS on an empty buffer; else it answers the new count and the back
element, which leaves the contents; front_index stays, and no slot is written (42_removal.md R121). -/
def Obligations.PopBackRemovesLastElement : Prop :=
  EncodedWith .popBack 0x9 0 0 ∧
  ∀ (s : State), s.Inv → s.fault = false →
    (s.capacity = 0 → AnswersNoop (exec .popBack s) s) ∧
    (0 < s.capacity → s.count = 0 → TakesFault (exec .popBack s) s .emptyAccess 1) ∧
    (0 < s.count → ∃ t,
      Answers (exec .popBack s) .ok (s.count - 1) (readSlot s (slot s (s.count - 1))) t ∧
      t.count = s.count - 1 ∧ t.frontIndex = s.frontIndex ∧ t.capacity = s.capacity ∧
      t.storage = s.storage ∧ SameSlots s t ∧
      contents s = contents t ++ [readSlot s (slot s (s.count - 1))] ∧
      fullFlag t = false ∧ MutatedFrame s t)

/-! ### Bulk commands (43_bulk.md) -/

/-- RESET empties the buffer: front_index and count become 0, the cursor is invalidated; capacity, slots and
fault state stay (43_bulk.md R130). -/
def Obligations.ResetEmptiesTheBuffer : Prop :=
  EncodedWith .reset 0xA 0 0 ∧
  ∀ (s : State), s.fault = false →
    ∃ t, Answers (exec .reset s) .ok 0 0 t ∧ t.frontIndex = 0 ∧ t.count = 0 ∧ contents t = [] ∧
      t.capacity = s.capacity ∧ t.storage = s.storage ∧ SameSlots s t ∧
      emptyFlag t = true ∧ (fullFlag t = true ↔ s.capacity = 0) ∧ MutatedFrame s t

/-- RESIZE n: RESIZE_CAPACITY above CAP_MAX, with nothing changed; else n slots that all hold DEFAULT_VALUE and
an empty buffer, whatever the capacity was before: the buffer of hardware reset with CAP_INIT = n; the fault
state stays (43_bulk.md R131). -/
def Obligations.ResizeReplacesTheStorage : Prop :=
  (∀ n, EncodedWith (.resize n) 0xB n 0) ∧
  ∀ (s : State) (n : Nat), s.fault = false →
    (s.params.capMax < n → TakesFault (exec (.resize n) s) s .resizeCapacity 4) ∧
    (n ≤ s.params.capMax →
      ∃ t, Answers (exec (.resize n) s) .ok n 0 t ∧ t.capacity = n ∧
        (∀ a, a < n → memRead t a = .ok s.params.defaultValue) ∧
        SameBuffer (State.hardwareReset { s.params with capInit := n } []) t ∧ t.frontIndex = 0 ∧ t.count = 0 ∧
        contents t = [] ∧ emptyFlag t = true ∧ (fullFlag t = true ↔ n = 0) ∧ MutatedFrame s t)

/-- RESIZE n leaves the buffer that hardware reset with CAP_INIT = n leaves (30_encoding.md R85, 43_bulk.md
R131), and RESET and RESIZE, given again when the response has been taken, are idempotent on the buffer
(20_memory.md R58). -/
def Obligations.BulkCommandsAreIdempotent : Prop :=
  ∀ (s t : State) (n : Nat), s.fault = false → n ≤ s.params.capMax →
    (exec (.resize n) s = .next t →
      SameBuffer (State.hardwareReset { s.params with capInit := n } []) t ∧
      ∃ u, exec (.resize n) { t with rsp := none } = .next u ∧ SameBuffer t u) ∧
    (exec .reset s = .next t → ∃ u, exec .reset { t with rsp := none } = .next u ∧ SameBuffer t u)

/-- The capacity-0 engine (10_state.md R28): count is 0; every push, emplace and pop is a NOOP; RESET and
RESIZE still execute. -/
def Obligations.ZeroCapacityMutatorsAreNoops : Prop :=
  ∀ (s : State), s.Inv → s.fault = false → s.capacity = 0 →
    s.count = 0 ∧
    (∀ v, AnswersNoop (exec (.pushFront v) s) s ∧ AnswersNoop (exec (.pushBack v) s) s ∧
      AnswersNoop (exec (.emplaceFront v) s) s ∧ AnswersNoop (exec (.emplaceBack v) s) s) ∧
    AnswersNoop (exec .popFront s) s ∧ AnswersNoop (exec .popBack s) s ∧
    (∃ t, Answers (exec .reset s) .ok 0 0 t) ∧
    (∀ n, n ≤ s.params.capMax → ∃ t, Answers (exec (.resize n) s) .ok n 0 t ∧ t.capacity = n)

/-! ### Iteration (44_iteration.md) -/

/-- ITER_BEGIN puts the cursor at position 0, answers count, and changes nothing else (44_iteration.md R140). -/
def Obligations.IterBeginStartsAtTheFront : Prop :=
  EncodedWith .iterBegin 0xC 0 0 ∧
  ∀ (s : State), s.fault = false →
    ∃ t, Answers (exec .iterBegin s) .ok s.count 0 t ∧ t.iterValid = true ∧ t.iterPos = 0 ∧
      SameBuffer s t ∧ SameFault s t ∧ SameHost s t

/-- ITER_NEXT: ITER_INVALID without a valid cursor; END at the end, with the cursor unchanged; else the element
at the cursor, which moves on by one; the buffer never changes (44_iteration.md R141). -/
def Obligations.IterNextReadsAndAdvances : Prop :=
  EncodedWith .iterNext 0xD 0 0 ∧
  ∀ (s : State), s.Inv → s.fault = false →
    (s.iterValid = false → TakesFault (exec .iterNext s) s .iterInvalid 3) ∧
    (s.iterValid = true → s.iterPos = s.count → OnlyAnswers (exec .iterNext s) s .endOfSeq s.count 0) ∧
    (s.iterValid = true → s.iterPos < s.count →
      ∃ t, Answers (exec .iterNext s) .ok s.iterPos (readSlot s (slot s s.iterPos)) t ∧
        (contents s)[s.iterPos]? = some (readSlot s (slot s s.iterPos)) ∧
        t.iterPos = s.iterPos + 1 ∧ t.iterValid = true ∧ SameBuffer s t ∧ SameFault s t ∧ SameHost s t)

/-- Cursor invalidation (44_iteration.md R142): a mutating command that does not fault clears iter_valid, NOOP
or not; a command that faults leaves the cursor unchanged, and the engine is FAULTED; of the others only
ITER_BEGIN, as R140 says, and ITER_NEXT, as R141 says, touch the cursor, and of these only ITER_BEGIN
iter_valid. -/
def Obligations.MutatingCommandsInvalidateTheCursor : Prop :=
  ∀ (s : State) (i : Instr), s.Inv → s.fault = false →
    ∃ t, exec i s = .next t ∧
      (mutating i = true → t.fault = false → t.iterValid = false) ∧
      (t.fault = true → SameCursor s t) ∧
      (mutating i = false → i ≠ .iterBegin → t.iterValid = s.iterValid) ∧
      (mutating i = false → i ≠ .iterBegin → i ≠ .iterNext → t.iterPos = s.iterPos)

/-- The traversal law (44_iteration.md R143): ITER_BEGIN and count+1 times ITER_NEXT answer the
length, then the elements of the contents in order with positions 0 to count-1, then END; the buffer does not
change. -/
def Obligations.TraversalLaw : Prop :=
  ∀ (s : State), s.Inv → s.fault = false →
    ∃ t, answers (.iterBegin :: List.replicate (s.count + 1) .iterNext) s =
        some ({ st := .ok, rval := s.count, rdata := 0 } ::
          ((contents s).zipIdx.map (fun e => { st := .ok, rval := e.2, rdata := e.1 }) ++
            [{ st := .endOfSeq, rval := s.count, rdata := 0 }]), t) ∧
      SameBuffer s t ∧ SameFault s t ∧ SameHost s t

/-! ### CSRs (10_state.md, 45_csr.md) -/

/-- READ_CSR c: for c < 5 it answers the CSR's value and changes nothing, FAULTED or not; for c ≥ 5 it takes
ILLEGAL_CSR, or answers FAULTED while FAULTED (45_csr.md R150). -/
def Obligations.ReadCsrAnswersTheCsr : Prop :=
  (∀ c, EncodedWith (.readCsr c) 0xE c 0) ∧
  ∀ (s : State) (c : Nat), s.params.Legal →
    (c = 0 → OnlyAnswers (exec (.readCsr c) s) s .ok
      (s.fault.toNat + 2 * (causeCode s.cause).toNat + 32 * s.iterValid.toNat +
        64 * (decide (s.count = 0)).toNat + 128 * (decide (s.count = s.capacity)).toNat) 0) ∧
    (c = 1 → OnlyAnswers (exec (.readCsr c) s) s .ok s.capacity 0) ∧
    (c = 2 → OnlyAnswers (exec (.readCsr c) s) s .ok s.count 0) ∧
    (c = 3 → OnlyAnswers (exec (.readCsr c) s) s .ok s.frontIndex 0) ∧
    (c = 4 → OnlyAnswers (exec (.readCsr c) s) s .ok s.iterPos 0) ∧
    (5 ≤ c → s.fault = false → TakesFault (exec (.readCsr c) s) s .illegalCsr 6) ∧
    (5 ≤ c → s.fault = true → OnlyAnswers (exec (.readCsr c) s) s .faulted 0 0)

/-- The fields of STATUS (10_state.md R36): FAULT [0], CAUSE [4:1], ITER_VALID [5], EMPTY [6], FULL [7], and
every bit above reads 0; after hardware reset it is 0x40, or 0xC0 at CAP_INIT = 0. -/
def Obligations.StatusRegisterFields : Prop :=
  ∀ (s : State), s.params.Legal →
    (csrValue s .status).testBit 0 = s.fault ∧
    csrValue s .status / 2 % 16 = (causeCode s.cause).toNat ∧
    (csrValue s .status).testBit 5 = s.iterValid ∧
    (csrValue s .status).testBit 6 = decide (s.count = 0) ∧
    (csrValue s .status).testBit 7 = decide (s.count = s.capacity) ∧
    (∀ k, 8 ≤ k → (csrValue s .status).testBit k = false) ∧
    ∀ turns, csrValue (State.hardwareReset s.params turns) .status = (if s.params.capInit = 0 then 0xC0 else 0x40)

/-- Repeating a read-only command is idempotent: given again when its response has been taken, it changes nothing
and answers the same (20_memory.md R58). -/
def Obligations.ReadOnlyCommandsRepeat : Prop :=
  ∀ (s t : State) (i : Instr), i ∈ [Instr.size, .front, .back] ∨ (∃ p, i = .atIndex p) ∨ (∃ c, i = .readCsr c) →
    exec i s = .next t → t.fault = s.fault → exec i { t with rsp := none } = .next t

/-! ### Ports, response transport and numerals (20_memory.md, 30_encoding.md) -/

/-- The output ports: `cmd_ready` is 1 exactly while there is no reset and no response waits; `rsp_valid` is 1
exactly while there is no reset and a response waits; `rsp` then carries that response's word; `fault_o` is the
fault bit; `cmd_valid` is 1 exactly while a word is offered (30_encoding.md R66, R68, R69, R75). That `cmd_ready`
is 0 in the turn that takes the response is the model's reading (log 5); that `rsp` has no value while `rsp_valid`
= 0 is the model's choice (log 3). -/
def Obligations.PortsFollowTheState : Prop :=
  ∀ (s : State) (turn : PortInputs),
    (cmdReady s turn = true ↔ turn.rst = false ∧ s.rsp = none) ∧
    (rspValid s turn = true ↔ turn.rst = false ∧ s.rsp ≠ none) ∧
    (∀ r, s.rsp = some r → turn.rst = false → rspWord s turn = some (responseWord s.params r)) ∧
    (rspValid s turn = false → rspWord s turn = none) ∧
    faultO s = s.fault ∧ (cmdValid turn = true ↔ ∃ w, turn.cmd = some w)

/-- A response survives a byte-wide transport: as many bytes as one word has, byte k being bits [8k+7:8k] of the
response word, give the word back (20_memory.md R55). The exact length is the model's choice (log 12). -/
def Obligations.BytesCarryResponseWords : Prop :=
  ∀ (p : Params) (r : Response),
    wordOfBytes p (responseBytes p r) = .ok (responseWord p r) ∧ (responseBytes p r).length = p.wordBytes ∧
    ∀ k, k < p.wordBytes → (responseBytes p r)[k]? = some ((responseWord p r).extractLsb' (8 * k) 8)

/-- The assembler reads a number written without leading zeros, in decimal, or after `0x` in hexadecimal with
upper-case letters, as the spec's examples write it, or with lower-case ones, as that number (30_encoding.md R84,
R86). That both cases are read is the model's choice (log 14). -/
def Obligations.NumeralsReadAsTheirNumber : Prop :=
  ∀ n : Nat,
    numberOperand (Nat.toDigits 10 n) = some n ∧
    numberOperand ('0' :: 'x' :: (Nat.toDigits 16 n).map Char.toUpper) = some n ∧
    numberOperand ('0' :: 'x' :: Nat.toDigits 16 n) = some n
end

