-- ==== Sys2Proof/Laws/Encoding.lean ====
section
/-! SUPPORT. The fields of a packed word (30_encoding.md R70) and the bytes of a number (20_memory.md R55). -/

namespace Sys2Proof

variable (p : Params) (data : BitVec p.w) (idx : BitVec p.idxW) (rsv op : BitVec 4)

@[simp] theorem opField_packWord : opField p (packWord p data idx rsv op) = op := by
  apply BitVec.eq_of_getLsbD_eq
  intro k hk
  simp [opField, packWord, BitVec.getLsbD_append, hk]

@[simp] theorem rsvField_packWord : rsvField p (packWord p data idx rsv op) = rsv := by
  apply BitVec.eq_of_getLsbD_eq
  intro k hk
  simp [rsvField, packWord, BitVec.getLsbD_append, hk]

@[simp] theorem idxField_packWord : idxField p (packWord p data idx rsv op) = idx := by
  apply BitVec.eq_of_getLsbD_eq
  intro k hk
  have h1 : ¬ 8 + k < 4 := by omega
  have h2 : ¬ 8 + k - 4 < 4 := by omega
  have h3 : 8 + k - 4 - 4 = k := by omega
  simp [idxField, packWord, BitVec.getLsbD_append, hk, h1, h2, h3]

@[simp] theorem dataField_packWord : dataField p (packWord p data idx rsv op) = data := by
  apply BitVec.eq_of_getLsbD_eq
  intro k hk
  have h1 : ¬ p.idxW + 8 + k < 4 := by omega
  have h2 : ¬ p.idxW + 8 + k - 4 < 4 := by omega
  have h3 : ¬ p.idxW + 8 + k - 4 - 4 < p.idxW := by omega
  have h4 : p.idxW + 8 + k - 4 - 4 - p.idxW = k := by omega
  simp [dataField, packWord, BitVec.getLsbD_append, hk, h1, h2, h3, h4]

/-- The port carries a word as the number its bits stand for. -/
@[simp] theorem portWord_toNat (w : p.Word) : Machine.portWord p w.toNat = w := by simp [Machine.portWord]

theorem length_bytesOf (n v : Nat) : (bytesOf n v).length = n := by
  induction n generalizing v with
  | zero => rfl
  | succ n ih => simp [bytesOf, ih]

theorem getElem?_bytesOf (n v k : Nat) (h : k < n) :
    (bytesOf n v)[k]? = some (BitVec.ofNat 8 (v / 256 ^ k)) := by
  induction n generalizing v k with
  | zero => omega
  | succ n ih =>
    cases k with
    | zero => simp [bytesOf]
    | succ k =>
      simp only [bytesOf, List.getElem?_cons_succ]
      rw [ih _ _ (by omega), Nat.div_div_eq_div_mul, pow_succ']

/-- The bytes of one word have room for its bits. -/
theorem two_pow_wordWidth_le (p : Params) : 2 ^ p.wordWidth ≤ 256 ^ p.wordBytes := by
  rw [show 256 = 2 ^ 8 by norm_num, ← pow_mul]
  exact Nat.pow_le_pow_right (by norm_num) (by simp only [Params.wordBytes]; omega)

theorem numberOf_bytesOf (n v : Nat) : numberOf (bytesOf n v) = v % 256 ^ n := by
  induction n generalizing v with
  | zero => simp [bytesOf, numberOf, Nat.mod_one]
  | succ n ih =>
    simp only [bytesOf, numberOf, ih, BitVec.toNat_ofNat]
    rw [pow_succ' 256 n, Nat.mod_mul (a := 256)]

end Sys2Proof
end

