-- ==== Sys2Proof/Laws/Memory.lean ====
section
/-! SUPPORT. The laws of storage: reading after writing, and that every operation keeps the canonical form, in
which equal storages are equal lists. -/

namespace Sys2Proof.Machine

variable {d x : Nat} {m : Memory} {a k : Nat}

@[simp] theorem memoryRead_nil : memoryRead d [] k = d := rfl

/-- A slot below every listed slot reads as the default. -/
theorem memoryRead_of_forall_lt (h : ∀ c ∈ m, k < c.1) : memoryRead d m k = d := by
  induction m with
  | nil => rfl
  | cons c rest ih =>
    obtain ⟨a, y⟩ := c
    have hk : k < a := h (a, y) (by simp)
    simp only [memoryRead, if_neg hk.ne']
    exact ih fun e he => h e (by simp [he])

/-- Read after write, the same slot. -/
theorem memoryRead_memoryWrite_self (h : m.Pairwise fun c e => c.1 < e.1) :
    memoryRead d (memoryWrite d m k x) k = x := by
  induction m with
  | nil => by_cases hx : x = d <;> simp [memoryWrite, memoryRead, hx]
  | cons c rest ih =>
    obtain ⟨a, y⟩ := c
    obtain ⟨hlt, hrest⟩ := List.pairwise_cons.mp h
    have below : ∀ j, j ≤ a → memoryRead d rest j = d := fun j hj =>
      memoryRead_of_forall_lt fun e he => Nat.lt_of_le_of_lt hj (hlt e he)
    rcases Nat.lt_trichotomy k a with hk | hk | hk
    · by_cases hx : x = d <;> simp [memoryWrite, memoryRead, hk, hx, hk.ne', below k hk.le]
    · subst hk
      by_cases hx : x = d <;> simp [memoryWrite, memoryRead, hx, below k le_rfl]
    · simp [memoryWrite, memoryRead, hk.not_gt, hk.ne', hk.ne, ih hrest]

/-- Read after write, another slot. -/
theorem memoryRead_memoryWrite_of_ne (h : a ≠ k) :
    memoryRead d (memoryWrite d m k x) a = memoryRead d m a := by
  induction m with
  | nil => by_cases hx : x = d <;> simp [memoryWrite, memoryRead, hx, h.symm]
  | cons c rest ih =>
    obtain ⟨b, y⟩ := c
    simp only [memoryWrite]
    split_ifs with h1 h2 h3 h4
    · rfl
    · simp [memoryRead, h.symm]
    · subst h3; simp [memoryRead, h.symm]
    · subst h3; simp [memoryRead, h.symm]
    · simp [memoryRead, ih]

/-- A listed cell after a write is the written one or one that was listed before, at another slot. -/
theorem mem_memoryWrite {c : Nat × Nat} (hc : c ∈ memoryWrite d m k x) : (c = (k, x) ∧ x ≠ d) ∨ c ∈ m := by
  induction m with
  | nil => by_cases hx : x = d <;> simp_all [memoryWrite]
  | cons e rest ih =>
    obtain ⟨b, y⟩ := e
    simp only [memoryWrite] at hc
    split_ifs at hc <;> simp_all <;> tauto

/-- A write keeps the listed slots strictly rising. -/
theorem pairwise_memoryWrite (h : m.Pairwise fun c e => c.1 < e.1) :
    (memoryWrite d m k x).Pairwise fun c e => c.1 < e.1 := by
  induction m with
  | nil => by_cases hx : x = d <;> simp [memoryWrite, hx]
  | cons e rest ih =>
    obtain ⟨b, y⟩ := e
    obtain ⟨hlt, hrest⟩ := List.pairwise_cons.mp h
    simp only [memoryWrite]
    split_ifs with h1 h2 h3 h4
    · exact h
    · exact List.pairwise_cons.mpr
        ⟨fun c hc => by
          rcases List.mem_cons.mp hc with rfl | hc
          · exact h1
          · exact h1.trans (hlt c hc), h⟩
    · exact hrest
    · exact List.pairwise_cons.mpr ⟨fun c hc => h3 ▸ hlt c hc, hrest⟩
    · refine List.pairwise_cons.mpr ⟨fun c hc => ?_, ih hrest⟩
      rcases mem_memoryWrite hc with ⟨rfl, -⟩ | hc
      · exact Nat.lt_of_le_of_ne (Nat.le_of_not_lt h1) (Ne.symm h3)
      · exact hlt c hc

/-- The empty list, the storage of hardware reset and RESIZE, is in canonical form. -/
theorem wf_nil (p : Params) (cap : Nat) : Memory.wf p cap [] := by simp [Memory.wf]

/-- A write of a W-bit element below the capacity keeps the canonical form. -/
theorem wf_memoryWrite {p : Params} {cap : Nat} (h : Memory.wf p cap m) (hk : k < cap) (hx : x < 2 ^ p.w) :
    Memory.wf p cap (memoryWrite p.defaultValue m k x) :=
  ⟨pairwise_memoryWrite h.1, fun c hc => by
    rcases mem_memoryWrite hc with ⟨rfl, hd⟩ | hc
    · exact ⟨hk, hx, hd⟩
    · exact h.2 c hc⟩

/-- Every slot of a storage in canonical form holds a W-bit element. -/
theorem memoryRead_lt {p : Params} {cap : Nat} (hp : p.Legal) (h : Memory.wf p cap m) :
    memoryRead p.defaultValue m k < 2 ^ p.w := by
  obtain ⟨-, h⟩ := h
  induction m with
  | nil => exact hp.2.2.2.2
  | cons e rest ih =>
    obtain ⟨b, y⟩ := e
    simp only [memoryRead]
    split_ifs
    · exact (h (b, y) (by simp)).2.1
    · exact ih fun c hc => h c (by simp [hc])

/-- Canonical form: two storages in it that hold the same element in every slot are the same list. -/
theorem memory_ext {p : Params} {cap cap' : Nat} {m' : Memory} (h : Memory.wf p cap m) (h' : Memory.wf p cap' m')
    (hr : ∀ j, memoryRead p.defaultValue m j = memoryRead p.defaultValue m' j) : m = m' := by
  obtain ⟨hp, hd⟩ := h
  obtain ⟨hp', hd'⟩ := h'
  induction m generalizing m' with
  | nil =>
    cases m' with
    | nil => rfl
    | cons e rest' =>
      have := hr e.1
      simp only [memoryRead, if_true] at this
      exact absurd this.symm (hd' e (by simp)).2.2
  | cons c rest ih =>
    obtain ⟨b, y⟩ := c
    obtain ⟨hlt, hrest⟩ := List.pairwise_cons.mp hp
    cases m' with
    | nil =>
      have := hr b
      simp only [memoryRead, if_true] at this
      exact absurd this (hd (b, y) (by simp)).2.2
    | cons e rest' =>
      obtain ⟨b', y'⟩ := e
      obtain ⟨hlt', hrest'⟩ := List.pairwise_cons.mp hp'
      have hb : b = b' := by
        rcases Nat.lt_trichotomy b b' with hl | hl | hl
        · have h1 := hr b
          rw [memoryRead_of_forall_lt (m := (b', y') :: rest')] at h1
          · simp only [memoryRead, if_true] at h1
            exact absurd h1 (hd (b, y) (by simp)).2.2
          · intro c hc
            rcases List.mem_cons.mp hc with rfl | hc
            · exact hl
            · exact hl.trans (hlt' c hc)
        · exact hl
        · have h1 := hr b'
          rw [memoryRead_of_forall_lt (m := (b, y) :: rest)] at h1
          · simp only [memoryRead, if_true] at h1
            exact absurd h1.symm (hd' (b', y') (by simp)).2.2
          · intro c hc
            rcases List.mem_cons.mp hc with rfl | hc
            · exact hl
            · exact hl.trans (hlt c hc)
      subst hb
      have hy : y = y' := by simpa [memoryRead] using hr b
      subst hy
      congr 1
      refine ih (fun j => ?_) hrest (fun c hc => hd c (by simp [hc])) hrest' (fun c hc => hd' c (by simp [hc]))
      by_cases hj : b = j
      · subst hj
        rw [memoryRead_of_forall_lt hlt, memoryRead_of_forall_lt hlt']
      · simpa [memoryRead, hj] using hr j

end Sys2Proof.Machine
end

