-- ==== Sys2Proof/Laws/State.lean ====
section
/-! SUPPORT. One lemma for each field under each named update of the state, each true by unfolding, so that no
later proof unfolds an update. -/

namespace Sys2Proof.Machine

@[simp] theorem respond_params (s : State) (st : Status) (rv : Nat) (rd : Nat) : (respond s st rv rd).params = s.params := rfl
@[simp] theorem respond_capacity (s : State) (st : Status) (rv : Nat) (rd : Nat) : (respond s st rv rd).capacity = s.capacity := rfl
@[simp] theorem respond_storage (s : State) (st : Status) (rv : Nat) (rd : Nat) : (respond s st rv rd).storage = s.storage := rfl
@[simp] theorem respond_frontIndex (s : State) (st : Status) (rv : Nat) (rd : Nat) : (respond s st rv rd).frontIndex = s.frontIndex := rfl
@[simp] theorem respond_count (s : State) (st : Status) (rv : Nat) (rd : Nat) : (respond s st rv rd).count = s.count := rfl
@[simp] theorem respond_iterValid (s : State) (st : Status) (rv : Nat) (rd : Nat) : (respond s st rv rd).iterValid = s.iterValid := rfl
@[simp] theorem respond_iterPos (s : State) (st : Status) (rv : Nat) (rd : Nat) : (respond s st rv rd).iterPos = s.iterPos := rfl
@[simp] theorem respond_fault (s : State) (st : Status) (rv : Nat) (rd : Nat) : (respond s st rv rd).fault = s.fault := rfl
@[simp] theorem respond_cause (s : State) (st : Status) (rv : Nat) (rd : Nat) : (respond s st rv rd).cause = s.cause := rfl
@[simp] theorem respond_rsp (s : State) (st : Status) (rv : Nat) (rd : Nat) : (respond s st rv rd).rsp = some { st := st, rval := rv, rdata := rd } := rfl
@[simp] theorem respond_inputs (s : State) (st : Status) (rv : Nat) (rd : Nat) : (respond s st rv rd).inputs = s.inputs := rfl

@[simp] theorem raiseFault_params (s : State) (c : Cause) : (raiseFault s c).params = s.params := rfl
@[simp] theorem raiseFault_capacity (s : State) (c : Cause) : (raiseFault s c).capacity = s.capacity := rfl
@[simp] theorem raiseFault_storage (s : State) (c : Cause) : (raiseFault s c).storage = s.storage := rfl
@[simp] theorem raiseFault_frontIndex (s : State) (c : Cause) : (raiseFault s c).frontIndex = s.frontIndex := rfl
@[simp] theorem raiseFault_count (s : State) (c : Cause) : (raiseFault s c).count = s.count := rfl
@[simp] theorem raiseFault_iterValid (s : State) (c : Cause) : (raiseFault s c).iterValid = s.iterValid := rfl
@[simp] theorem raiseFault_iterPos (s : State) (c : Cause) : (raiseFault s c).iterPos = s.iterPos := rfl
@[simp] theorem raiseFault_fault (s : State) (c : Cause) : (raiseFault s c).fault = true := rfl
@[simp] theorem raiseFault_cause (s : State) (c : Cause) : (raiseFault s c).cause = c := rfl
@[simp] theorem raiseFault_rsp (s : State) (c : Cause) : (raiseFault s c).rsp = some { st := .fault, rval := (causeCode c).toNat, rdata := 0 } := rfl
@[simp] theorem raiseFault_inputs (s : State) (c : Cause) : (raiseFault s c).inputs = s.inputs := rfl

@[simp] theorem answerFaulted_params (s : State) : (answerFaulted s).params = s.params := rfl
@[simp] theorem answerFaulted_capacity (s : State) : (answerFaulted s).capacity = s.capacity := rfl
@[simp] theorem answerFaulted_storage (s : State) : (answerFaulted s).storage = s.storage := rfl
@[simp] theorem answerFaulted_frontIndex (s : State) : (answerFaulted s).frontIndex = s.frontIndex := rfl
@[simp] theorem answerFaulted_count (s : State) : (answerFaulted s).count = s.count := rfl
@[simp] theorem answerFaulted_iterValid (s : State) : (answerFaulted s).iterValid = s.iterValid := rfl
@[simp] theorem answerFaulted_iterPos (s : State) : (answerFaulted s).iterPos = s.iterPos := rfl
@[simp] theorem answerFaulted_fault (s : State) : (answerFaulted s).fault = s.fault := rfl
@[simp] theorem answerFaulted_cause (s : State) : (answerFaulted s).cause = s.cause := rfl
@[simp] theorem answerFaulted_rsp (s : State) : (answerFaulted s).rsp = some { st := .faulted, rval := 0, rdata := 0 } := rfl
@[simp] theorem answerFaulted_inputs (s : State) : (answerFaulted s).inputs = s.inputs := rfl

@[simp] theorem emptied_params (s : State) : (emptied s).params = s.params := rfl
@[simp] theorem emptied_capacity (s : State) : (emptied s).capacity = s.capacity := rfl
@[simp] theorem emptied_storage (s : State) : (emptied s).storage = s.storage := rfl
@[simp] theorem emptied_frontIndex (s : State) : (emptied s).frontIndex = 0 := rfl
@[simp] theorem emptied_count (s : State) : (emptied s).count = 0 := rfl
@[simp] theorem emptied_iterValid (s : State) : (emptied s).iterValid = s.iterValid := rfl
@[simp] theorem emptied_iterPos (s : State) : (emptied s).iterPos = s.iterPos := rfl
@[simp] theorem emptied_fault (s : State) : (emptied s).fault = s.fault := rfl
@[simp] theorem emptied_cause (s : State) : (emptied s).cause = s.cause := rfl
@[simp] theorem emptied_rsp (s : State) : (emptied s).rsp = s.rsp := rfl
@[simp] theorem emptied_inputs (s : State) : (emptied s).inputs = s.inputs := rfl

@[simp] theorem invalidate_params (s : State) : (invalidate s).params = s.params := rfl
@[simp] theorem invalidate_capacity (s : State) : (invalidate s).capacity = s.capacity := rfl
@[simp] theorem invalidate_storage (s : State) : (invalidate s).storage = s.storage := rfl
@[simp] theorem invalidate_frontIndex (s : State) : (invalidate s).frontIndex = s.frontIndex := rfl
@[simp] theorem invalidate_count (s : State) : (invalidate s).count = s.count := rfl
@[simp] theorem invalidate_iterValid (s : State) : (invalidate s).iterValid = false := rfl
@[simp] theorem invalidate_iterPos (s : State) : (invalidate s).iterPos = s.iterPos := rfl
@[simp] theorem invalidate_fault (s : State) : (invalidate s).fault = s.fault := rfl
@[simp] theorem invalidate_cause (s : State) : (invalidate s).cause = s.cause := rfl
@[simp] theorem invalidate_rsp (s : State) : (invalidate s).rsp = s.rsp := rfl
@[simp] theorem invalidate_inputs (s : State) : (invalidate s).inputs = s.inputs := rfl

@[simp] theorem noop_params (s : State) : (noop s).params = s.params := rfl
@[simp] theorem noop_capacity (s : State) : (noop s).capacity = s.capacity := rfl
@[simp] theorem noop_storage (s : State) : (noop s).storage = s.storage := rfl
@[simp] theorem noop_frontIndex (s : State) : (noop s).frontIndex = s.frontIndex := rfl
@[simp] theorem noop_count (s : State) : (noop s).count = s.count := rfl
@[simp] theorem noop_iterValid (s : State) : (noop s).iterValid = false := rfl
@[simp] theorem noop_iterPos (s : State) : (noop s).iterPos = s.iterPos := rfl
@[simp] theorem noop_fault (s : State) : (noop s).fault = s.fault := rfl
@[simp] theorem noop_cause (s : State) : (noop s).cause = s.cause := rfl
@[simp] theorem noop_rsp (s : State) : (noop s).rsp = some { st := .noop, rval := 0, rdata := 0 } := rfl
@[simp] theorem noop_inputs (s : State) : (noop s).inputs = s.inputs := rfl

@[simp] theorem hardwareReset_params (p : Params) (turns : List PortInputs) : (State.hardwareReset p turns).params = p := rfl
@[simp] theorem hardwareReset_capacity (p : Params) (turns : List PortInputs) : (State.hardwareReset p turns).capacity = p.capInit := rfl
@[simp] theorem hardwareReset_storage (p : Params) (turns : List PortInputs) : (State.hardwareReset p turns).storage = [] := rfl
@[simp] theorem hardwareReset_frontIndex (p : Params) (turns : List PortInputs) : (State.hardwareReset p turns).frontIndex = 0 := rfl
@[simp] theorem hardwareReset_count (p : Params) (turns : List PortInputs) : (State.hardwareReset p turns).count = 0 := rfl
@[simp] theorem hardwareReset_iterValid (p : Params) (turns : List PortInputs) : (State.hardwareReset p turns).iterValid = false := rfl
@[simp] theorem hardwareReset_iterPos (p : Params) (turns : List PortInputs) : (State.hardwareReset p turns).iterPos = 0 := rfl
@[simp] theorem hardwareReset_fault (p : Params) (turns : List PortInputs) : (State.hardwareReset p turns).fault = false := rfl
@[simp] theorem hardwareReset_cause (p : Params) (turns : List PortInputs) : (State.hardwareReset p turns).cause = Cause.none := rfl
@[simp] theorem hardwareReset_rsp (p : Params) (turns : List PortInputs) : (State.hardwareReset p turns).rsp = none := rfl
@[simp] theorem hardwareReset_inputs (p : Params) (turns : List PortInputs) : (State.hardwareReset p turns).inputs = turns := rfl

@[simp] theorem withFetchWord_params (s : State) (nbits w : Nat) : (s.withFetchWord nbits w).params = s.params := rfl
@[simp] theorem withFetchWord_capacity (s : State) (nbits w : Nat) : (s.withFetchWord nbits w).capacity = s.capacity := rfl
@[simp] theorem withFetchWord_storage (s : State) (nbits w : Nat) : (s.withFetchWord nbits w).storage = s.storage := rfl
@[simp] theorem withFetchWord_frontIndex (s : State) (nbits w : Nat) : (s.withFetchWord nbits w).frontIndex = s.frontIndex := rfl
@[simp] theorem withFetchWord_count (s : State) (nbits w : Nat) : (s.withFetchWord nbits w).count = s.count := rfl
@[simp] theorem withFetchWord_iterValid (s : State) (nbits w : Nat) : (s.withFetchWord nbits w).iterValid = s.iterValid := rfl
@[simp] theorem withFetchWord_iterPos (s : State) (nbits w : Nat) : (s.withFetchWord nbits w).iterPos = s.iterPos := rfl
@[simp] theorem withFetchWord_fault (s : State) (nbits w : Nat) : (s.withFetchWord nbits w).fault = s.fault := rfl
@[simp] theorem withFetchWord_cause (s : State) (nbits w : Nat) : (s.withFetchWord nbits w).cause = s.cause := rfl
@[simp] theorem withFetchWord_rsp (s : State) (nbits w : Nat) : (s.withFetchWord nbits w).rsp = none := rfl
@[simp] theorem withFetchWord_inputs (s : State) (nbits w : Nat) : (s.withFetchWord nbits w).inputs = offer (w % 2 ^ nbits) :: s.inputs := rfl

/-! ### What a slot, a position and a CSR read as after an update that leaves the buffer alone -/

@[simp] theorem readSlot_respond (s : State) (st : Status) (rv : Nat) (rd : Nat) (a : Nat) :
    readSlot (respond s st rv rd) a = readSlot s a := rfl
@[simp] theorem readSlot_raiseFault (s : State) (c : Cause) (a : Nat) : readSlot (raiseFault s c) a = readSlot s a := rfl
@[simp] theorem readSlot_answerFaulted (s : State) (a : Nat) : readSlot (answerFaulted s) a = readSlot s a := rfl
@[simp] theorem readSlot_invalidate (s : State) (a : Nat) : readSlot (invalidate s) a = readSlot s a := rfl
@[simp] theorem readSlot_emptied (s : State) (a : Nat) : readSlot (emptied s) a = readSlot s a := rfl
@[simp] theorem readSlot_noop (s : State) (a : Nat) : readSlot (noop s) a = readSlot s a := rfl
@[simp] theorem readSlot_hardwareReset (p : Params) (turns : List PortInputs) (a : Nat) :
    readSlot (State.hardwareReset p turns) a = p.defaultValue := rfl
@[simp] theorem slot_respond (s : State) (st : Status) (rv : Nat) (rd : Nat) (p : Nat) :
    slot (respond s st rv rd) p = slot s p := rfl
@[simp] theorem contents_respond (s : State) (st : Status) (rv : Nat) (rd : Nat) :
    contents (respond s st rv rd) = contents s := rfl
@[simp] theorem contents_emptied (s : State) : contents (emptied s) = [] := rfl
@[simp] theorem csrValue_respond (s : State) (st : Status) (rv : Nat) (rd : Nat) (c : Csr) :
    csrValue (respond s st rv rd) c = csrValue s c := by cases c <;> rfl

/-- The contents have one element for each live position. -/
@[simp] theorem length_contents (s : State) : (contents s).length = s.count := by simp [contents]

/-- The element of the contents at a live position is the element of that position's slot. -/
theorem getElem?_contents (s : State) (p : Nat) (h : p < s.count) :
    (contents s)[p]? = some (readSlot s (slot s p)) := by simp [contents, h]

end Sys2Proof.Machine
end

