-- ==== Sys2Proof/Laws/Ops.lean ====
section
/-! SUPPORT. For each shared operation one lemma that says once all it can do, so that no later proof unfolds
it: slot access, the dispatch's guard, the two insertions, acceptance, a turn of the host, the step, the
decoder. -/

namespace Sys2Proof.Machine

/-! ### Slots -/

/-- All that MemRead can do. -/
theorem memRead_ok {s : State} {k : Nat} {v : Nat} :
    memRead s k = .ok v ↔ k < s.capacity ∧ v = readSlot s k := by
  unfold memRead
  split_ifs with h <;> simp [h, eq_comm]

/-- All that MemWrite can do. -/
theorem memWrite_ok {s t : State} {k : Nat} {v : Nat} :
    memWrite s k v = .ok t ↔
      k < s.capacity ∧ t = { s with storage := memoryWrite s.params.defaultValue s.storage k v } := by
  unfold memWrite
  split_ifs with h <;> simp [h, eq_comm]

/-! ### Outcomes -/

@[simp] theorem finish_ok (t : State) : finish (.ok t) = .next t := rfl
@[simp] theorem finish_error (f : Fault) : finish (.error f) = .fault f := rfl

/-- A rule that comes to a next state came to that state. -/
theorem finish_eq_next {r : Except Fault State} {t : State} : finish r = .next t ↔ r = .ok t := by
  cases r <;> simp [finish]

/-- The dispatch's guard in an engine that is not FAULTED. -/
theorem unlessFaulted_of_running {s : State} (h : s.fault = false) (r : Except Fault State) :
    unlessFaulted s r = finish r := by simp [unlessFaulted, h]

/-- The dispatch's guard while FAULTED. -/
theorem unlessFaulted_of_faulted {s : State} (h : s.fault = true) (r : Except Fault State) :
    unlessFaulted s r = .next (answerFaulted s) := by simp [unlessFaulted, h]

/-- All that a guarded command rule can do. -/
theorem unlessFaulted_cases {s t : State} {r : Except Fault State} (h : unlessFaulted s r = .next t) :
    (s.fault = true ∧ t = answerFaulted s) ∨ (s.fault = false ∧ r = .ok t) := by
  cases hf : s.fault
  · exact .inr ⟨rfl, finish_eq_next.mp (unlessFaulted_of_running hf r ▸ h)⟩
  · rw [unlessFaulted_of_faulted hf] at h
    exact .inl ⟨rfl, (Host.Outcome.next.inj h).symm⟩

/-! ### The shared rules of the families -/

/-- An access command's answer, its slot in range. -/
theorem answerElement_eq {s : State} {k : Nat} (h : k < s.capacity) (rv : Nat) :
    answerElement s rv k = .ok (respond s .ok rv (readSlot s k)) := by
  simp [answerElement, memRead, h, bind, Except.bind, pure, Except.pure]

/-- All that an access command's answer can do. -/
theorem answerElement_ok {s t : State} {rv k : Nat} (h : answerElement s rv k = .ok t) :
    k < s.capacity ∧ t = respond s .ok rv (readSlot s k) := by
  by_cases hk : k < s.capacity
  · rw [answerElement_eq hk] at h
    exact ⟨hk, (Except.ok.inj h).symm⟩
  · simp [answerElement, memRead, hk, bind, Except.bind] at h

/-- The state after an insertion before the front, its slot in range. -/
theorem insertFront_eq {s : State} {v : Nat} (hc : 0 < s.capacity)
    (hf : moduloDec s.capacity s.frontIndex < s.capacity) :
    insertFront v s = .ok (respond (invalidate { s with
      frontIndex := moduloDec s.capacity s.frontIndex,
      storage := memoryWrite s.params.defaultValue s.storage (moduloDec s.capacity s.frontIndex) v,
      count := if s.count < s.capacity then s.count + 1 else s.count }) .ok
      (if s.count < s.capacity then s.count + 1 else s.count) 0) := by
  simp [insertFront, memWrite, hc.ne', hf, bind, Except.bind, pure, Except.pure]

/-- The state after an insertion after the back, its slot in range. -/
theorem insertBack_eq {s : State} {v : Nat} (hc : 0 < s.capacity) :
    insertBack v s = .ok (respond (invalidate { s with
      storage := memoryWrite s.params.defaultValue s.storage (slot s s.count) v,
      frontIndex := if s.count < s.capacity then s.frontIndex else moduloInc s.capacity s.frontIndex,
      count := if s.count < s.capacity then s.count + 1 else s.count }) .ok
      (if s.count < s.capacity then s.count + 1 else s.count) 0) := by
  have hs : slot s s.count < s.capacity := Nat.mod_lt _ hc
  by_cases h : s.count < s.capacity <;>
    simp [insertBack, memWrite, hc.ne', hs, h, bind, Except.bind, pure, Except.pure]

/-- All that an insertion before the front can do: the NOOP of capacity 0, or one write, its slot in range. -/
theorem insertFront_ok {s t : State} {v : Nat} (h : insertFront v s = .ok t) :
    (s.capacity = 0 ∧ t = noop s) ∨
    (0 < s.capacity ∧ moduloDec s.capacity s.frontIndex < s.capacity ∧
      t = respond (invalidate { s with
        frontIndex := moduloDec s.capacity s.frontIndex,
        storage := memoryWrite s.params.defaultValue s.storage (moduloDec s.capacity s.frontIndex) v,
        count := if s.count < s.capacity then s.count + 1 else s.count }) .ok
        (if s.count < s.capacity then s.count + 1 else s.count) 0) := by
  rcases Nat.eq_zero_or_pos s.capacity with hc | hc
  · simp only [insertFront, hc, if_true] at h
    exact .inl ⟨hc, (Except.ok.inj h).symm⟩
  · by_cases hf : moduloDec s.capacity s.frontIndex < s.capacity
    · rw [insertFront_eq hc hf] at h
      exact .inr ⟨hc, hf, (Except.ok.inj h).symm⟩
    · simp [insertFront, memWrite, hc.ne', hf, bind, Except.bind] at h

/-- All that an insertion after the back can do: the NOOP of capacity 0, or one write. -/
theorem insertBack_ok {s t : State} {v : Nat} (h : insertBack v s = .ok t) :
    (s.capacity = 0 ∧ t = noop s) ∨
    (0 < s.capacity ∧
      t = respond (invalidate { s with
        storage := memoryWrite s.params.defaultValue s.storage (slot s s.count) v,
        frontIndex := if s.count < s.capacity then s.frontIndex else moduloInc s.capacity s.frontIndex,
        count := if s.count < s.capacity then s.count + 1 else s.count }) .ok
        (if s.count < s.capacity then s.count + 1 else s.count) 0) := by
  rcases Nat.eq_zero_or_pos s.capacity with hc | hc
  · simp only [insertBack, hc, if_true] at h
    exact .inl ⟨hc, (Except.ok.inj h).symm⟩
  · rw [insertBack_eq hc] at h
    exact .inr ⟨hc, (Except.ok.inj h).symm⟩

/-! ### Decoding, turns and steps -/

/-- All that the decoder can answer. -/
theorem decode_ok {p : Params} {w : p.Word} {i : Instr} :
    decode p w = .ok i ↔
      rsvField p w = 0 ∧ instrOf (opField p w).toNat (idxField p w).toNat (dataField p w).toNat = some i := by
  unfold decode
  split_ifs with h
  · cases hi : instrOf (opField p w).toNat (idxField p w).toNat (dataField p w).toNat <;> simp [h]
  · exact ⟨fun hd => by simp at hd, fun hd => absurd hd.1 h⟩

/-- All that a turn of the host can do. -/
theorem hostTurn_cases {turn : PortInputs} {s t : State} (h : hostTurn turn s = .next t) :
    (turn.rst = true ∧ t = State.hardwareReset s.params s.inputs) ∨
    (turn.rst = false ∧ s.rsp ≠ none ∧ turn.rspReady = true ∧ t = { s with rsp := none }) ∨
    (turn.rst = false ∧ s.rsp ≠ none ∧ turn.rspReady = false ∧ t = s) ∨
    (turn.rst = false ∧ s.rsp = none ∧ turn.cmd = none ∧ t = s) ∨
    (turn.rst = false ∧ s.rsp = none ∧ ∃ w, turn.cmd = some w ∧ acceptWord w s = .next t) := by
  obtain ⟨rst, cmd, rdy⟩ := turn
  cases rst
  · cases hr : s.rsp with
    | none =>
      cases cmd with
      | none => simp_all [hostTurn, rspValid]
      | some w => simpa [hostTurn, rspValid, hr] using h
    | some r => cases rdy <;> simp_all [hostTurn, rspValid, eq_comm]
  · simp_all [hostTurn, eq_comm]

/-- All that an accepted word can do: it is a command and runs, or it is rejected. -/
theorem acceptWord_cases {w : Nat} {s : State} :
    (∃ i, decode s.params (portWord s.params w) = .ok i ∧ acceptWord w s = exec i s) ∨
    ((∃ e, decode s.params (portWord s.params w) = .error e) ∧ acceptWord w s = illegalCommand s) := by
  unfold acceptWord
  cases decode s.params (portWord s.params w) <;> simp

/-- All that a step can do. -/
theorem step_cases {s t : State} (h : step s = .next t) :
    s.params.Legal ∧
    ((s.inputs = [] ∧ t = s) ∨
      ∃ turn rest, s.inputs = turn :: rest ∧ hostTurn turn { s with inputs := rest } = .next t) := by
  unfold step at h
  split_ifs at h with hp
  refine ⟨hp, ?_⟩
  cases hi : s.inputs with
  | nil => simp_all [eq_comm]
  | cons turn rest => exact .inr ⟨turn, rest, rfl, by simpa [hi] using h⟩

/-- A run of k + 1 steps is a step and a run of k. -/
theorem run_of_step {s t : State} (h : step s = .next t) (k : Nat) : core.run (k + 1) s = core.run k t := by
  have one : ∀ (M : Host.Core) (a b : M.State), M.step a = .next b → M.run (k + 1) a = M.run k b := by
    intro M a b hab
    simp only [Host.Core.run, hab]
  exact one core s t h

/-- The words taken in k + 1 turns are the one of the next turn and those of k turns from its step. -/
theorem takenWords_of_step {s t : State} (h : step s = .next t) (k : Nat) :
    takenWords (k + 1) s = (takenWord s).toList ++ takenWords k t := by
  simp only [takenWords, h]

end Sys2Proof.Machine
end

