-- ==== Sys2Proof/Laws/PerInstr.lean ====
section
/-! SUPPORT. The family OpcodeByte, said of every constructor of Instr: the low byte of a command's word is its
opcode with RSV = 0, the match byte of spec/opcode_table.json (30_encoding.md R81), and is never 0xF. -/

namespace Sys2Proof

/-- The low byte of a packed word is its OP and RSV fields (30_encoding.md R70). -/
theorem packWord_low_byte (p : Params) (data : BitVec p.w) (idx : BitVec p.idxW) (rsv op : BitVec 4) :
    (packWord p data idx rsv op).extractLsb' 0 8 = rsv ++ op := by
  apply BitVec.eq_of_getLsbD_eq
  intro k hk
  have h8 : k < 8 := hk
  simp only [packWord, BitVec.getLsbD_extractLsb', BitVec.getLsbD_append, h8, decide_true, Bool.true_and, Nat.zero_add]
  by_cases h1 : k < 4
  · simp [h1]
  · have h4 : k - 4 < 4 := by omega
    simp [h1, h4]

end Sys2Proof

namespace Sys2Proof.Laws.OpcodeByte

/-- The low byte of the command's word, in every engine, is RSV = 0 and its opcode, which is a legal one. -/
def Statement (i : Instr) : Prop :=
  (∀ p : Params, (encode p i).extractLsb' 0 8 = (0 : BitVec 4) ++ opcodeOf i) ∧ opcodeOf i ≠ 0xF

/-- The family's statement holds of a command whose opcode is not 0xF. -/
theorem of_legal (i : Instr) (h : opcodeOf i ≠ 0xF) : Statement i := ⟨fun p => packWord_low_byte p _ _ _ _, h⟩

theorem size : Statement .size := of_legal _ (by decide)
theorem front : Statement .front := of_legal _ (by decide)
theorem back : Statement .back := of_legal _ (by decide)
theorem atIndex (i : Nat) : Statement (.atIndex i) := of_legal _ (by simp [opcodeOf])
theorem pushFront (v : Nat) : Statement (.pushFront v) := of_legal _ (by simp [opcodeOf])
theorem pushBack (v : Nat) : Statement (.pushBack v) := of_legal _ (by simp [opcodeOf])
theorem emplaceFront (v : Nat) : Statement (.emplaceFront v) := of_legal _ (by simp [opcodeOf])
theorem emplaceBack (v : Nat) : Statement (.emplaceBack v) := of_legal _ (by simp [opcodeOf])
theorem popFront : Statement .popFront := of_legal _ (by decide)
theorem popBack : Statement .popBack := of_legal _ (by decide)
theorem reset : Statement .reset := of_legal _ (by decide)
theorem resize (n : Nat) : Statement (.resize n) := of_legal _ (by simp [opcodeOf])
theorem iterBegin : Statement .iterBegin := of_legal _ (by decide)
theorem iterNext : Statement .iterNext := of_legal _ (by decide)
theorem readCsr (c : Nat) : Statement (.readCsr c) := of_legal _ (by simp [opcodeOf])

end Sys2Proof.Laws.OpcodeByte
end

