-- ==== Sys2Proof/Tests/Slice0.lean ====
section
/-! SUPPORT. Tests. Expected words, responses and states are those of the spec: 30_encoding.md R86 and the
vectors of 95_test_vectors.md (named in the comments), or the rule a test names. The last part shows for every
obligation with hypotheses that concrete states and operands meet them, clause by clause. -/

namespace Sys2Proof.Tests

open Sys2Proof.Machine

/-! ### Helpers -/

/-- An engine of configuration EX that is not FAULTED and has no valid cursor. -/
def engine (cap : Nat) (slots : Memory) (front count : Nat) : State :=
  { State.reset with capacity := cap, storage := slots, frontIndex := front, count := count }

/-- The start states of 95_test_vectors.md part 2. -/
def z : State := engine 0 [] 0 0
def s3 : State := engine 3 [(0, 4), (1, 2), (2, 3)] 1 3
def w3 : State := engine 4 [(0, 7), (1, 8), (2, 5), (3, 6)] 2 3
def fl : State := engine 4 [(0, 1), (1, 2), (2, 3), (3, 4)] 3 4
def one : State := engine 1 [(0, 5)] 0 1

/-- S3 with a valid cursor at `pos`. -/
def s3Cursor (pos : Nat) : State := { s3 with iterValid := true, iterPos := pos }

/-- S3 after EMPTY_ACCESS; no run leads here from S3 itself, but the rules hold of it. -/
def s3Faulted : State := { s3 with fault := true, cause := .emptyAccess }

/-- The engine after the word `w` was offered and accepted. -/
def sent (s : State) (w : Nat) : Option State :=
  match step (s.withFetchWord 72 w) with
  | .next t => some t
  | .fault _ => none
  | .refused _ => none

/-- The response word to `w`, as a number. -/
def answer (s : State) (w : Nat) : Option Nat := (sent s w).bind (fun t => (rspWord t takeResponse).map BitVec.toNat)

/-- Slots, front_index and count after `w`. -/
def buffer (s : State) (w : Nat) : Option (List Nat × Nat × Nat) :=
  (sent s w).map (fun t => ((List.range t.capacity).map (readSlot t), t.frontIndex, t.count))

/-- iter_valid, iter_pos, fault and cause after `w`. -/
def bits (s : State) (w : Nat) : Option (Bool × Nat × Bool × Cause) :=
  (sent s w).map (fun t => (t.iterValid, t.iterPos, t.fault, t.cause))

/-! ### WellFormed refuses what does not fit (30_encoding.md R70, R84; 00_scope.md R10) -/

theorem test_wf_atIndex_too_wide : ¬ (Instr.atIndex 0x100000000).WellFormed Config.ex := by decide
theorem test_wf_pushFront_too_wide : ¬ (Instr.pushFront 0x100000000).WellFormed Config.ex := by decide
theorem test_wf_pushBack_too_wide : ¬ (Instr.pushBack 0x100000000).WellFormed Config.ex := by decide
theorem test_wf_emplaceFront_too_wide : ¬ (Instr.emplaceFront 0x100000000).WellFormed Config.ex := by decide
theorem test_wf_emplaceBack_too_wide : ¬ (Instr.emplaceBack 0x100000000).WellFormed Config.ex := by decide
theorem test_wf_resize_too_wide : ¬ (Instr.resize 0x100000000).WellFormed Config.ex := by decide
theorem test_wf_readCsr_too_wide : ¬ (Instr.readCsr 0x100000000).WellFormed Config.ex := by decide

theorem test_legal_ex : Config.ex.Legal := by decide
theorem test_legal_needs_an_element_bit : ¬ ({ Config.ex with w := 0, defaultValue := 0 } : Params).Legal := by decide
theorem test_legal_needs_eight_index_bits : ¬ ({ Config.ex with idxW := 7 } : Params).Legal := by decide
theorem test_legal_bounds_capMax : ¬ ({ Config.ex with capMax := 2 ^ 31 + 1 } : Params).Legal := by decide
theorem test_legal_bounds_capInit : ¬ ({ Config.ex with capInit := 17 } : Params).Legal := by decide
theorem test_legal_bounds_default : ¬ ({ Config.ex with defaultValue := 2 ^ 32 } : Params).Legal := by decide

/-! ### The canonical form of storage -/

theorem test_wf_reset : Memory.wf State.reset.params State.reset.capacity State.reset.storage := by decide
theorem test_wf_refuses_descending_slots : ¬ Memory.wf Config.ex 3 [(1, 2), (0, 4)] := by decide
theorem test_wf_refuses_listed_default : ¬ Memory.wf Config.ex 3 [(0, 0)] := by decide
theorem test_wf_refuses_slot_above_capacity : ¬ Memory.wf Config.ex 3 [(3, 1)] := by decide

/-! ### Decoding: one word per command, written out from R70 and R78 (R86) -/

theorem test_decode_size : decodeTableWord 8 0x00 = some .size := by decide
theorem test_decode_front : decodeTableWord 8 0x01 = some .front := by decide
theorem test_decode_back : decodeTableWord 8 0x02 = some .back := by decide
theorem test_decode_atIndex : decodeTableWord 72 0x000000000000000203 = some (.atIndex 2) := by decide
theorem test_decode_pushFront : decodeTableWord 72 0x000000090000000004 = some (.pushFront 9) := by decide
theorem test_decode_pushBack : decodeTableWord 72 0x000000010000000005 = some (.pushBack 1) := by decide
theorem test_decode_emplaceFront : decodeTableWord 72 0xDEADBEEF0000000006 = some (.emplaceFront 0xDEADBEEF) := by decide
theorem test_decode_emplaceBack : decodeTableWord 72 0x000000070000000007 = some (.emplaceBack 7) := by decide
theorem test_decode_popFront : decodeTableWord 8 0x08 = some .popFront := by decide
theorem test_decode_popBack : decodeTableWord 8 0x09 = some .popBack := by decide
theorem test_decode_reset : decodeTableWord 8 0x0A = some .reset := by decide
theorem test_decode_resize : decodeTableWord 72 0x00000000000000030B = some (.resize 3) := by decide
theorem test_decode_iterBegin : decodeTableWord 8 0x0C = some .iterBegin := by decide
theorem test_decode_iterNext : decodeTableWord 8 0x0D = some .iterNext := by decide
theorem test_decode_readCsr : decodeTableWord 72 0x00000000000000010E = some (.readCsr 1) := by decide

/-- R79: OP = 0xF and RSV ≠ 0 are rejected by name. -/
theorem test_decode_rejects :
    decode Config.ex 0x00000000000000000F = .error .illegalOpcode ∧
    decode Config.ex 0x000000000000000080 = .error .reservedField := by decide

/-- R81: V2's word of OP 0 with IDX 7 and DATA 0xAB is SIZE. -/
theorem test_decode_ignored_fields : decodeTableWord 72 0x000000AB0000000700 = some .size := by decide

/-- A widest field and its neighbours: IDX all ones leaves DATA alone, and the other way round. -/
theorem test_decode_field_edges :
    decodeTableWord 72 0x00000000FFFFFFFF03 = some (.atIndex 0xFFFFFFFF) ∧
    decodeTableWord 72 0xFFFFFFFF0000000005 = some (.pushBack 0xFFFFFFFF) := by decide

/-- R55, log 12: a transport of another length is rejected by name. -/
theorem test_decode_wrong_length : decodeBytes Config.ex [0x08] = .error .wrongLength := by decide

/-- R55, log 12: at W = 1 and IDX_W = 8 a word has 17 bits, so 7 bits of its third byte stay 0. -/
theorem test_decode_padding :
    decodeBytes { Config.ex with w := 1, idxW := 8 } [0x05, 0x00, 0x01] = .ok (.pushBack 1) ∧
    decodeBytes { Config.ex with w := 1, idxW := 8 } [0x05, 0x00, 0x02] = .error .paddingBits := by decide

/-- R55, R75: the bytes of a response word, ST first; the same bytes give the word back. -/
theorem test_response_bytes :
    responseBytes Config.ex { st := .fault, rval := 6, rdata := 0x01020304 } = [3, 6, 0, 0, 0, 4, 3, 2, 1] ∧
    wordOfBytes Config.ex [3, 6, 0, 0, 0, 4, 3, 2, 1] = .ok 0x010203040000000603 := by decide

/-- R84: a decimal operand with a comment, and one that does not fit. -/
theorem test_assemble_lines :
    assembleLine Config.ex ['A', 'T', ' ', '2', ' ', ';', ' ', 'x'] = .ok (some (.atIndex 2)) ∧
    assembleLine Config.ex ['A', 'T', ' ', '0', 'x', '1', '0', '0', '0', '0', '0', '0', '0', '0'] =
      .error .operandRange ∧
    assembleLine Config.ex ['s', 'i', 'z', 'e'] = .error .unknownMnemonic := by decide

/-! ### Index arithmetic (95_test_vectors.md V9) -/

theorem test_moduloInc : [(1, 0), (3, 0), (3, 1), (3, 2), (16, 15)].map (fun e => moduloInc e.1 e.2) = [0, 1, 2, 0, 0] := by
  decide
theorem test_moduloDec : [(1, 0), (3, 0), (3, 1), (3, 2), (16, 15)].map (fun e => moduloDec e.1 e.2) = [0, 2, 0, 1, 14] := by
  decide
theorem test_slot :
    slot s3 0 = 1 ∧ slot s3 2 = 0 ∧ slot s3 3 = 1 ∧ slot (engine 4 [] 3 2) 1 = 0 ∧ slot (engine 4 [] 2 3) 3 = 1 := by decide

/-! ### One step of each command (95_test_vectors.md V2 to V8) -/

theorem test_size : answer s3 0x00 = some 0x000000000000000300 := by decide
theorem test_front : answer s3 0x01 = some 0x000000020000000000 := by decide
theorem test_front_empty :
    answer State.reset 0x01 = some 0x000000000000000103 ∧
    bits State.reset 0x01 = some (false, 0, true, .emptyAccess) := by decide
theorem test_back_wraps : answer w3 0x02 = some 0x000000070000000200 := by decide
theorem test_back_empty : answer State.reset 0x02 = some 0x000000000000000103 := by decide
theorem test_atIndex_wraps : answer s3 0x0203 = some 0x000000040000000200 := by decide
theorem test_atIndex_out_of_range : answer s3 0x0303 = some 0x000000000000000203 := by decide

theorem test_pushFront_evicts_back :
    answer s3 0x000000090000000004 = some 0x000000000000000300 ∧
    buffer s3 0x000000090000000004 = some ([9, 2, 3], 0, 3) := by decide
theorem test_pushFront_wraps : buffer State.reset 0x0000000A0000000004 = some ([0, 0, 10], 2, 1) := by decide
theorem test_pushBack_evicts_front :
    answer fl 0x000000090000000005 = some 0x000000000000000400 ∧
    buffer fl 0x000000090000000005 = some ([1, 2, 3, 9], 0, 4) := by decide
theorem test_pushBack_wraps : buffer w3 0x000000090000000005 = some ([7, 9, 5, 6], 2, 4) := by decide
theorem test_emplaceFront : buffer s3 0xDEADBEEF0000000006 = some ([0xDEADBEEF, 2, 3], 0, 3) := by decide
theorem test_emplaceBack : buffer s3 0x000000070000000007 = some ([4, 7, 3], 2, 3) := by decide
/-- E2, step 3. -/
theorem test_emplaceBack_capacity_zero : answer z 0x000000030000000007 = some 0x000000000000000001 := by decide

theorem test_popFront_wraps :
    answer fl 0x08 = some 0x000000040000000300 ∧ buffer fl 0x08 = some ([1, 2, 3, 4], 0, 3) := by decide
theorem test_popFront_empty : answer State.reset 0x08 = some 0x000000000000000103 := by decide
theorem test_popBack :
    answer s3 0x09 = some 0x000000040000000200 ∧ buffer s3 0x09 = some ([4, 2, 3], 1, 2) := by decide
theorem test_popBack_capacity_zero : answer z 0x09 = some 0x000000000000000001 := by decide

theorem test_reset_keeps_slots : buffer s3 0x0A = some ([4, 2, 3], 0, 0) := by decide
theorem test_resize_same_capacity : buffer s3 0x030B = some ([0, 0, 0], 0, 0) := by decide
theorem test_resize_above_capMax :
    answer s3 0x110B = some 0x000000000000000403 ∧ buffer s3 0x110B = some ([4, 2, 3], 1, 3) := by decide

theorem test_iterBegin :
    answer s3 0x0C = some 0x000000000000000300 ∧ bits s3 0x0C = some (true, 0, false, .none) := by decide
theorem test_iterNext :
    answer (s3Cursor 1) 0x0D = some 0x000000030000000100 ∧ bits (s3Cursor 1) 0x0D = some (true, 2, false, .none) := by decide
theorem test_iterNext_end : answer (s3Cursor 3) 0x0D = some 0x000000000000000302 := by decide
/-- R142, R30: RESET clears iter_valid and keeps iter_pos. -/
theorem test_reset_invalidates : bits (s3Cursor 1) 0x0A = some (false, 1, false, .none) := by decide

theorem test_readCsr_status : answer s3 0x0E = some 0x000000000000008000 := by decide
theorem test_readCsr_illegal : answer s3 0x050E = some 0x000000000000000603 := by decide
/-- V8: RSV = 1. -/
theorem test_illegal_word :
    answer s3 0x10 = some 0x000000000000000503 ∧ bits s3 0x10 = some (false, 0, true, .illegalCommand) := by decide
/-- V8a: STATUS is still read while FAULTED (FULL, CAUSE = 1, FAULT by R36); everything else is FAULTED. -/
theorem test_faulted :
    answer s3Faulted 0x0E = some 0x000000000000008300 ∧ answer s3Faulted 0x0A = some 0x000000000000000004 := by decide

/-! ### Witnesses: the hypotheses of the obligations are met -/

/-- A turn of hardware reset, and a turn in which the host does nothing. -/
def resetTurn : PortInputs := { rst := true, cmd := some 0x05, rspReady := true }
def idleTurn : PortInputs := { rst := false, cmd := none, rspReady := false }

/-- S3 with the host's next turns. -/
def s3With (turns : List PortInputs) : State := { s3 with inputs := turns }

/-- S3 with a response on offer. -/
def s3Answering (turns : List PortInputs) : State :=
  { s3 with rsp := some { st := .ok, rval := 3, rdata := 0 }, inputs := turns }

/-- The start states meet the invariant: empty, of capacity 0, full, wrapped, of one slot, with a cursor at
its bound, FAULTED, with a response. -/
theorem witness_invariant :
    ∀ s ∈ [State.reset, z, s3, w3, fl, one, s3Cursor 3, s3Faulted, s3Answering []], s.Inv := by decide

/-- DecodeEncodeRoundTrip, BytesCarryCommandWords, PortTurnsRunCommandsInOrder: each field at its bounds. -/
theorem witness_wellFormed :
    ∀ i ∈ [Instr.size, .atIndex 0xFFFFFFFF, .pushFront 0, .pushBack 0xFFFFFFFF, .resize 0, .readCsr 0xFFFFFFFF],
      i.WellFormed s3.params := by decide

/-- BytesCarryCommandWords, BytesCarryResponseWords: the last byte of a word. -/
theorem witness_wordBytes : 8 < Config.ex.wordBytes ∧ ¬ 9 < Config.ex.wordBytes := by decide

/-- UnusedFieldsAreIgnored: SIZE with any IDX and DATA. -/
theorem witness_ignored_by_size :
    opField Config.ex 0x000000AB0000000700 = 0x0 ∧ opField Config.ex 0x00 = 0x0 ∧
    rsvField Config.ex 0x000000AB0000000700 = rsvField Config.ex 0x00 := by decide

/-- UnusedFieldsAreIgnored: AT with the same IDX and any DATA. -/
theorem witness_ignored_by_at :
    opField Config.ex 0x000000AB0000000203 = 0x3 ∧ opField Config.ex 0x0203 = 0x3 ∧
    rsvField Config.ex 0x000000AB0000000203 = rsvField Config.ex 0x0203 ∧
    idxField Config.ex 0x000000AB0000000203 = idxField Config.ex 0x0203 := by decide

/-- UnusedFieldsAreIgnored: PUSH_BACK with the same DATA and any IDX. -/
theorem witness_ignored_by_push :
    opField Config.ex 0x000000AB0000000705 = 0x5 ∧ opField Config.ex 0x000000AB0000000005 = 0x5 ∧
    rsvField Config.ex 0x000000AB0000000705 = rsvField Config.ex 0x000000AB0000000005 ∧
    dataField Config.ex 0x000000AB0000000705 = dataField Config.ex 0x000000AB0000000005 := by decide

/-- DecodedCommandsFitTheirFields. -/
theorem witness_DecodedCommandsFitTheirFields :
    decode Config.ex 0x00000000FFFFFFFF03 = .ok (.atIndex 0xFFFFFFFF) := by decide

/-- ResponseWordLayout: both values at their bounds. -/
theorem witness_ResponseWordLayout :
    responseFits Config.ex { st := .ok, rval := 0xFFFFFFFF, rdata := 0xFFFFFFFF } = true ∧
    responseFits Config.ex { st := .faulted, rval := 0, rdata := 0 } = true := by decide

/-- AssembledOperandsFit: an accepted line. -/
theorem witness_accepted_line :
    assembleLine Config.ex ['A', 'T', ' ', '0', 'x', 'F', 'F', 'F', 'F', 'F', 'F', 'F', 'F'] =
      .ok (some (.atIndex 0xFFFFFFFF)) := by decide

/-- AssembledOperandsFit: a line of mnemonic and operand, the mnemonic's row, the widest operand that fits and
the first that does not. -/
theorem witness_AssembledOperandsFit :
    wordsOf [] (stripComment ['A', 'T', ' ', '2', ';']) = [['A', 'T'], ['2']] ∧
    mnemonics.lookup ['A', 'T'] = some (0x3, .index) ∧ OperandKind.index ≠ .absent ∧
    operandValue .index ['4', '2', '9', '4', '9', '6', '7', '2', '9', '5'] = some (2 ^ 32 - 1) ∧
    operandValue .index ['4', '2', '9', '4', '9', '6', '7', '2', '9', '6'] = some (2 ^ 32) := by decide

/-- StepRunsTheDecodedCommand, EveryAcceptedWordIsAnswered: a legal word is accepted. -/
theorem witness_accepted :
    (s3With [offer 0x09]).params.Legal ∧ (s3With [offer 0x09]).Inv ∧ (s3With [offer 0x09]).inputs = [offer 0x09] ∧
    cmdReady (s3With [offer 0x09]) (offer 0x09) = true ∧ (offer 0x09).cmd = some 0x09 ∧
    decode s3.params (portWord s3.params 0x09) = .ok .popBack := by decide

/-- IllegalWordsRaiseIllegalCommand: RSV ≠ 0, OP = 0xF, and both. -/
theorem witness_IllegalWordsRaiseIllegalCommand :
    s3.fault = false ∧ rsvField s3.params (0x10 : BitVec 72) ≠ 0 ∧ opField s3.params (0x0F : BitVec 72) = 0xF ∧
    rsvField s3.params (0x0F : BitVec 72) = 0 ∧ rsvField s3.params (0x8F : BitVec 72) ≠ 0 := by decide

/-- FaultedEngineOnlyReadsCsrs: READ_CSR 4 is read. -/
theorem witness_read_while_faulted :
    s3Faulted.fault = true ∧ rsvField Config.ex 0x040E = 0 ∧ opField Config.ex 0x040E = 0xE ∧
    (idxField Config.ex 0x040E).toNat < 5 := by decide

/-- FaultedEngineOnlyReadsCsrs: READ_CSR 5, READ_CSR with RSV = 1 and SIZE are not executed. -/
theorem witness_not_executed_while_faulted :
    ¬ (idxField Config.ex 0x050E).toNat < 5 ∧ rsvField Config.ex 0x1E ≠ 0 ∧ opField Config.ex 0x00 ≠ 0xE := by decide

/-- HardwareResetTurn. -/
theorem witness_HardwareResetTurn :
    (s3With [resetTurn]).params.Legal ∧ (s3With [resetTurn]).inputs = [resetTurn] ∧ resetTurn.rst = true := by decide

/-- ResponseBlocksUntilTaken: the response is taken, or it waits. -/
theorem witness_ResponseBlocksUntilTaken :
    ∀ turn ∈ [takeResponse, offer 0x09], (s3Answering [turn]).params.Legal ∧ (s3Answering [turn]).inputs = [turn] ∧
      rspValid (s3Answering [turn]) turn = true := by decide

/-- IdleEngineHoldsItsState: no turn left, or an idle one. -/
theorem witness_IdleEngineHoldsItsState :
    s3.params.Legal ∧ s3.inputs = [] ∧ (s3With [idleTurn]).inputs = [idleTurn] ∧
    cmdReady (s3With [idleTurn]) idleTurn = true ∧ idleTurn.cmd = none := by decide

/-- IllegalParametersAreRefused. -/
theorem witness_IllegalParametersAreRefused :
    ¬ (State.hardwareReset { Config.ex with capInit := 17 } []).params.Legal := by decide

/-- HardwareResetValues, ResetMeetsTheInvariant: CAP_INIT = 0, and the last slot of CAP_INIT = 3. -/
theorem witness_legal_parameters :
    ({ Config.ex with capInit := 0 } : Params).Legal ∧ Config.ex.Legal ∧ 2 < Config.ex.capInit := by decide

/-- ResetMeetsTheInvariant: turns whose words have RSV = 0, and a turn that breaks it. -/
theorem witness_RsvClear :
    RsvClear Config.ex [offer 0x09, takeResponse] ∧ ¬ RsvClear Config.ex [offer 0x10] := by decide

/-- PortsFollowTheState: a response waits with and without `rst`, and none waits. -/
theorem witness_PortsFollowTheState :
    (s3Answering []).rsp = some { st := .ok, rval := 3, rdata := 0 } ∧ idleTurn.rst = false ∧
    rspValid (s3Answering []) resetTurn = false ∧ rspValid s3 idleTurn = false ∧ s3.rsp = none := by decide

/-- EveryStepKeepsTheInvariant, StepsKeepParametersAndUseOneTurn: a step is taken. -/
theorem witness_step : ∃ t, step (s3With [offer 0x09]) = .next t := ⟨_, rfl⟩

/-- PortTurnsRunCommandsInOrder: no response waits; its commands are those of witness_wellFormed. -/
theorem witness_no_response : s3.rsp = none := by decide

/-- FaultIsStickyUntilHardwareReset: a FAULTED engine whose host sends words and takes responses. -/
theorem witness_FaultIsStickyUntilHardwareReset :
    let s : State := { s3Faulted with inputs := [offer 0x0A, takeResponse, offer 0x0E] }
    s.Inv ∧ s.fault = true ∧ ∀ turn ∈ s.inputs, turn.rst = false := by decide

/-- OnlyResizeWritesCapacity. -/
theorem witness_OnlyResizeWritesCapacity :
    ∃ t, exec (.resize 16) s3 = .next t ∧ t.capacity ≠ s3.capacity := ⟨_, rfl, by decide⟩

/-- OnlyInsertionAndResizeWriteStorage. -/
theorem witness_OnlyInsertionAndResizeWriteStorage :
    (∃ t, exec (.pushBack 5) s3 = .next t) ∧ (∃ t, exec .popBack s3 = .next t) ∧
    (∃ t, exec (.resize 17) s3 = .next t) := ⟨⟨_, rfl⟩, ⟨_, rfl⟩, ⟨_, rfl⟩⟩

/-- CommandsRaiseExactlyTheirOwnCause, MutatingCommandsInvalidateTheCursor: commands that raise their cause
and commands that do not, at the bounds of the conditions, from states that meet the invariant
(witness_invariant). -/
theorem witness_causes :
    s3.fault = false ∧ raisesOwnCause s3 (.atIndex 3) = true ∧ raisesOwnCause s3 (.atIndex 2) = false ∧
    raisesOwnCause s3 (.resize 17) = true ∧ raisesOwnCause s3 (.resize 16) = false ∧
    raisesOwnCause s3 (.readCsr 5) = true ∧ raisesOwnCause s3 (.readCsr 4) = false ∧
    raisesOwnCause s3 .iterNext = true ∧ raisesOwnCause (s3Cursor 3) .iterNext = false ∧
    raisesOwnCause State.reset .popFront = true ∧ raisesOwnCause z .popFront = false ∧
    raisesOwnCause State.reset .front = true ∧ raisesOwnCause one .front = false := by decide

/-- MutatingCommandsInvalidateTheCursor: commands of each kind. -/
theorem witness_mutating :
    mutating .popBack = true ∧ mutating (.resize 17) = true ∧ mutating .iterBegin = false ∧
    mutating .iterNext = false ∧ mutating .size = false ∧ Instr.size ≠ .iterBegin ∧ Instr.size ≠ .iterNext := by decide

/-- DutifulHostsSeeNoFault: the last AT, pops down to empty, RESIZE to CAP_MAX, a traversal, the last CSR. -/
theorem witness_DutifulHostsSeeNoFault :
    dutiesMet [.atIndex 2, .popFront, .popBack, .front, .popBack, .resize 16, .pushBack 7, .iterBegin, .iterNext,
      .iterNext, .readCsr 4] s3 = true := by decide

/-- IndexArithmeticLaws, IndexArithmeticByCases: first and last index and position, with wrap and without. -/
theorem witness_index_arithmetic :
    0 < w3.capacity ∧ w3.frontIndex < w3.capacity ∧ w3.count ≤ w3.capacity ∧ 0 < w3.capacity ∧
    3 < w3.capacity ∧ ¬ 3 + 1 < w3.capacity ∧ 0 ≤ w3.count ∧ w3.frontIndex + 1 < w3.capacity ∧
    3 ≤ w3.count ∧ ¬ w3.frontIndex + 3 < w3.capacity := by decide

/-- The statements of the access, insertion and removal commands: not FAULTED (with witness_invariant) and
empty, holding one element, full, not full, of capacity 0; the first and last position and the next one. -/
theorem witness_access :
    State.reset.fault = false ∧ z.fault = false ∧ s3.fault = false ∧ w3.fault = false ∧ one.fault = false ∧
    State.reset.count = 0 ∧ 0 < State.reset.capacity ∧ one.count = 1 ∧ z.capacity = 0 ∧ 0 < s3.capacity ∧
    s3.count = s3.capacity ∧ w3.count < w3.capacity ∧ 2 < s3.count ∧ s3.count ≤ 3 := by decide

/-- FrontInsertionWritesOneSlot, BackInsertionWritesOneSlot: the last slot is another one than the slot written. -/
theorem witness_other_slot : 2 ≠ moduloDec s3.capacity s3.frontIndex ∧ 2 ≠ slot s3 s3.count := by decide

/-- ResizeReplacesTheStorage, ZeroCapacityMutatorsAreNoops: CAP_MAX and the next capacity; its last slot. -/
theorem witness_resize : s3.params.capMax < 17 ∧ 16 ≤ s3.params.capMax ∧ 16 ≤ z.params.capMax ∧ 15 < 16 := by decide

/-- BulkCommandsAreIdempotent. -/
theorem witness_BulkCommandsAreIdempotent :
    (∃ t, exec (.resize 16) s3 = .next t) ∧ (∃ t, exec .reset s3 = .next t) := ⟨⟨_, rfl⟩, ⟨_, rfl⟩⟩

/-- IterNextReadsAndAdvances, TraversalLaw: no cursor, a cursor at the end, one at the last element. -/
theorem witness_cursor :
    s3.iterValid = false ∧ (s3Cursor 3).iterValid = true ∧ (s3Cursor 3).iterPos = (s3Cursor 3).count ∧
    (s3Cursor 2).iterPos < (s3Cursor 2).count ∧ (s3Cursor 2).Inv ∧ (s3Cursor 2).fault = false := by decide

/-- ReadCsrAnswersTheCsr, StatusRegisterFields: the last legal number and the first illegal one, FAULTED and
not. -/
theorem witness_ReadCsrAnswersTheCsr :
    s3.params.Legal ∧ csrOf 4 = some .iterPos ∧ csrOf 5 = none ∧ s3.fault = false ∧ s3Faulted.fault = true ∧
    s3Faulted.params.Legal := by decide

/-- ReadOnlyCommandsRepeat: each of them answers without a fault. -/
theorem witness_ReadOnlyCommandsRepeat :
    ∀ i ∈ [Instr.size, .front, .back, .atIndex 2, .readCsr 4], ∃ t, exec i s3 = .next t ∧ t.fault = s3.fault := by
  intro i hi
  simp only [List.mem_cons, List.not_mem_nil, or_false] at hi
  rcases hi with rfl | rfl | rfl | rfl | rfl <;> exact ⟨_, rfl, rfl⟩

end Sys2Proof.Tests
end

/-! SUPPORT. The decoder undoes the encoder (30_encoding.md R70, R84). -/

namespace Sys2Proof

/-- The fields of a well-formed command hold its operands. -/
theorem operands_lt {p : Params} {i : Instr} (h : i.WellFormed p) :
    idxOf i < 2 ^ p.idxW ∧ dataOf i < 2 ^ p.w := by
  cases i with
  | atIndex n | resize n | readCsr n => exact ⟨of_decide_eq_true h, Nat.two_pow_pos _⟩
  | pushFront v | pushBack v | emplaceFront v | emplaceBack v => exact ⟨Nat.two_pow_pos _, of_decide_eq_true h⟩
  | size | front | back | popFront | popBack | reset | iterBegin | iterNext =>
    exact ⟨Nat.two_pow_pos _, Nat.two_pow_pos _⟩

/-- The opcode map gives a command back from its opcode and operands (30_encoding.md R78). -/
theorem instrOf_opcodeOf (i : Instr) : instrOf (opcodeOf i).toNat (idxOf i) (dataOf i) = some i := by
  cases i <;> rfl

/-- Decoding an encoded command gives it back. -/
theorem decode_encode {p : Params} {i : Instr} (h : i.WellFormed p) : decode p (encode p i) = .ok i := by
  obtain ⟨hidx, hdata⟩ := operands_lt h
  rw [Machine.decode_ok]
  simp [encode, Nat.mod_eq_of_lt hidx, Nat.mod_eq_of_lt hdata, instrOf_opcodeOf]

end Sys2Proof

/-! SUPPORT. What every command does at the ports, whatever it does to the buffer: it keeps parameters and turns
and offers a response (30_encoding.md R67), and it never looks at the turns (log 2). -/

namespace Sys2Proof.Machine

variable {s t u : State} {r : Except Fault State}

/-- All that reading a slot and then answering can do. -/
theorem memRead_then_ok {k : Nat} {f : Nat → State} :
    (memRead s k >>= fun v => pure (f v)) = .ok t ↔ k < s.capacity ∧ t = f (readSlot s k) := by
  unfold memRead
  split_ifs with h <;> simp [h, bind, Except.bind, pure, Except.pure, eq_comm]

/-! ### A command keeps its host and answers -/

/-- `t` offers a response, and its parameters and turns are those of `s`. -/
abbrev AnsweredFrame (s t : State) : Prop := SameHost s t ∧ ∃ rsp, t.rsp = some rsp

/-- Where the command rule `r`, run in `s`, comes to a state, that state answers and has the host of `s`. -/
abbrev RuleAnswers (s : State) (r : Except Fault State) : Prop := ∀ t, r = .ok t → AnsweredFrame s t

theorem ruleAnswers_ok (h : AnsweredFrame s u) : RuleAnswers s (.ok u) := by
  rintro t ⟨⟩
  exact h

theorem answeredFrame_respond (h : SameHost s u) (st : Status) (rv rd : Nat) :
    AnsweredFrame s (respond u st rv rd) := ⟨h, _, rfl⟩

theorem ruleAnswers_raiseFault (s : State) (c : Cause) : RuleAnswers s (.ok (raiseFault s c)) :=
  ruleAnswers_ok (answeredFrame_respond ⟨rfl, rfl⟩ _ _ _)

theorem ruleAnswers_memRead {k : Nat} {f : Nat → State} (h : ∀ v, AnsweredFrame s (f v)) :
    RuleAnswers s (memRead u k >>= fun v => pure (f v)) := by
  intro t ht
  obtain ⟨-, rfl⟩ := memRead_then_ok.mp ht
  exact h _

theorem ruleAnswers_answerElement (s : State) (rv k : Nat) : RuleAnswers s (answerElement s rv k) :=
  ruleAnswers_memRead fun _ => answeredFrame_respond ⟨rfl, rfl⟩ _ _ _

theorem ruleAnswers_ite {c : Prop} [Decidable c] {r' : Except Fault State} (h : RuleAnswers s r)
    (h' : RuleAnswers s r') : RuleAnswers s (if c then r else r') := by
  split_ifs
  · exact h
  · exact h'

theorem ruleAnswers_insertFront (s : State) (v : Nat) : RuleAnswers s (insertFront v s) := by
  intro t ht
  rcases insertFront_ok ht with ⟨-, rfl⟩ | ⟨-, -, rfl⟩ <;> exact ⟨⟨rfl, rfl⟩, _, rfl⟩

theorem ruleAnswers_insertBack (s : State) (v : Nat) : RuleAnswers s (insertBack v s) := by
  intro t ht
  rcases insertBack_ok ht with ⟨-, rfl⟩ | ⟨-, rfl⟩ <;> exact ⟨⟨rfl, rfl⟩, _, rfl⟩

/-- The guarded rule answers as the rule does, or with FAULTED. -/
theorem unlessFaulted_answers (h : unlessFaulted s r = .next t) (hr : RuleAnswers s r) : AnsweredFrame s t := by
  rcases unlessFaulted_cases h with ⟨-, rfl⟩ | ⟨-, ht⟩
  · exact ⟨⟨rfl, rfl⟩, _, rfl⟩
  · exact hr t ht

/-- Every command that comes to a next state answers there, its parameters and turns as before. -/
theorem exec_answers {i : Instr} (h : exec i s = .next t) : AnsweredFrame s t := by
  have here : ∀ {st rv rd} {u : State}, SameHost s u → AnsweredFrame s (respond u st rv rd) :=
    fun hu => answeredFrame_respond hu _ _ _
  cases i with
  | size => exact unlessFaulted_answers h (ruleAnswers_ok (here ⟨rfl, rfl⟩))
  | front =>
    exact unlessFaulted_answers h
      (ruleAnswers_ite (ruleAnswers_raiseFault s _) (ruleAnswers_answerElement s _ _))
  | back =>
    exact unlessFaulted_answers h
      (ruleAnswers_ite (ruleAnswers_raiseFault s _) (ruleAnswers_answerElement s _ _))
  | atIndex p =>
    exact unlessFaulted_answers h
      (ruleAnswers_ite (ruleAnswers_raiseFault s _) (ruleAnswers_answerElement s _ _))
  | pushFront v => exact unlessFaulted_answers h (ruleAnswers_insertFront s v)
  | pushBack v => exact unlessFaulted_answers h (ruleAnswers_insertBack s v)
  | emplaceFront v => exact unlessFaulted_answers h (ruleAnswers_insertFront s v)
  | emplaceBack v => exact unlessFaulted_answers h (ruleAnswers_insertBack s v)
  | popFront =>
    exact unlessFaulted_answers h (ruleAnswers_ite (ruleAnswers_ok (here ⟨rfl, rfl⟩))
      (ruleAnswers_ite (ruleAnswers_raiseFault s _) (ruleAnswers_memRead fun _ => here ⟨rfl, rfl⟩)))
  | popBack =>
    exact unlessFaulted_answers h (ruleAnswers_ite (ruleAnswers_ok (here ⟨rfl, rfl⟩))
      (ruleAnswers_ite (ruleAnswers_raiseFault s _) (ruleAnswers_memRead fun _ => here ⟨rfl, rfl⟩)))
  | reset => exact unlessFaulted_answers h (ruleAnswers_ok (here ⟨rfl, rfl⟩))
  | resize n =>
    refine unlessFaulted_answers h (ruleAnswers_ok ?_)
    split_ifs <;> exact here ⟨rfl, rfl⟩
  | iterBegin => exact unlessFaulted_answers h (ruleAnswers_ok (here ⟨rfl, rfl⟩))
  | iterNext =>
    exact unlessFaulted_answers h (ruleAnswers_ite (ruleAnswers_raiseFault s _)
      (ruleAnswers_ite (ruleAnswers_ok (here ⟨rfl, rfl⟩)) (ruleAnswers_memRead fun _ => here ⟨rfl, rfl⟩)))
  | readCsr c =>
    simp only [exec, execReadCsr] at h
    split at h
    · cases h
      exact here ⟨rfl, rfl⟩
    · exact unlessFaulted_answers h (ruleAnswers_raiseFault s _)

/-- A word that is rejected is answered too, its parameters and turns as before. -/
theorem illegalCommand_answers (h : illegalCommand s = .next t) : AnsweredFrame s t :=
  unlessFaulted_answers h (ruleAnswers_ok ⟨⟨rfl, rfl⟩, _, rfl⟩)

theorem acceptWord_answers {w : Nat} (h : acceptWord w s = .next t) : AnsweredFrame s t := by
  rcases acceptWord_cases (w := w) (s := s) with ⟨i, -, he⟩ | ⟨-, he⟩
  · exact exec_answers (he ▸ h)
  · exact illegalCommand_answers (he ▸ h)

/-! ### A command does not look at the turns -/

/-- `s` with other turns of the host to come. -/
abbrev State.withTurns (s : State) (turns : List PortInputs) : State := { s with inputs := turns }

/-- The command rule `r` of `s` comes to the same as the rule `r'` of `s` with other turns to come. -/
abbrev RuleIgnoresTurns (turns : List PortInputs) (r r' : Except Fault State) : Prop :=
  r' = r.map (·.withTurns turns)

variable {turns : List PortInputs}

theorem ruleIgnoresTurns_memRead {k : Nat} {f f' : Nat → State} (h : ∀ v, f' v = (f v).withTurns turns) :
    RuleIgnoresTurns turns (memRead s k >>= fun v => pure (f v))
      (memRead (s.withTurns turns) k >>= fun v => pure (f' v)) := by
  have hread : memRead (s.withTurns turns) k = memRead s k := rfl
  rw [RuleIgnoresTurns, hread, funext h]
  cases memRead s k <;> rfl

theorem ruleIgnoresTurns_answerElement (s : State) (rv k : Nat) :
    RuleIgnoresTurns turns (answerElement s rv k) (answerElement (s.withTurns turns) rv k) :=
  ruleIgnoresTurns_memRead fun _ => rfl

theorem ruleIgnoresTurns_ite {c : Prop} [Decidable c] {r₁ r₂ r₁' r₂' : Except Fault State}
    (h₁ : RuleIgnoresTurns turns r₁ r₁') (h₂ : RuleIgnoresTurns turns r₂ r₂') :
    RuleIgnoresTurns turns (if c then r₁ else r₂) (if c then r₁' else r₂') := by
  split_ifs
  · exact h₁
  · exact h₂

theorem ruleIgnoresTurns_memWrite {k v : Nat} {f f' : State → State}
    (h : ∀ t, f' (t.withTurns turns) = (f t).withTurns turns) :
    RuleIgnoresTurns turns (memWrite s k v >>= fun t => pure (f t))
      (memWrite (s.withTurns turns) k v >>= fun t => pure (f' t)) := by
  simp only [RuleIgnoresTurns, memWrite]
  split_ifs
  · exact congrArg Except.ok (h { s with storage := memoryWrite s.params.defaultValue s.storage k v })
  · rfl

theorem ruleIgnoresTurns_insertFront (s : State) (v : Nat) :
    RuleIgnoresTurns turns (insertFront v s) (insertFront v (s.withTurns turns)) :=
  ruleIgnoresTurns_ite rfl
    (ruleIgnoresTurns_memWrite (s := { s with frontIndex := moduloDec s.capacity s.frontIndex }) fun _ => rfl)

theorem ruleIgnoresTurns_insertBack (s : State) (v : Nat) :
    RuleIgnoresTurns turns (insertBack v s) (insertBack v (s.withTurns turns)) :=
  ruleIgnoresTurns_ite rfl (ruleIgnoresTurns_memWrite fun t => by
    by_cases h : s.count < s.capacity <;> simp only [h, if_true, if_false] <;> rfl)

/-- The guarded rule ignores the turns as the rule does. -/
theorem unlessFaulted_withTurns {r' : Except Fault State} (h : unlessFaulted s r = .next t)
    (hr : RuleIgnoresTurns turns r r') : unlessFaulted (s.withTurns turns) r' = .next (t.withTurns turns) := by
  rcases unlessFaulted_cases h with ⟨hf, rfl⟩ | ⟨hf, rfl⟩
  · exact unlessFaulted_of_faulted (s := s.withTurns turns) hf r'
  · rw [unlessFaulted_of_running (s := s.withTurns turns) hf, hr]
    rfl

/-- A command that comes to a next state comes to the same one when other turns are to come, but for these. -/
theorem exec_withTurns {i : Instr} (h : exec i s = .next t) (turns : List PortInputs) :
    exec i (s.withTurns turns) = .next (t.withTurns turns) := by
  cases i with
  | size => exact unlessFaulted_withTurns h rfl
  | front => exact unlessFaulted_withTurns h (ruleIgnoresTurns_ite rfl (ruleIgnoresTurns_answerElement s _ _))
  | back => exact unlessFaulted_withTurns h (ruleIgnoresTurns_ite rfl (ruleIgnoresTurns_answerElement s _ _))
  | atIndex i => exact unlessFaulted_withTurns h (ruleIgnoresTurns_ite rfl (ruleIgnoresTurns_answerElement s _ _))
  | pushFront v => exact unlessFaulted_withTurns h (ruleIgnoresTurns_insertFront s v)
  | pushBack v => exact unlessFaulted_withTurns h (ruleIgnoresTurns_insertBack s v)
  | emplaceFront v => exact unlessFaulted_withTurns h (ruleIgnoresTurns_insertFront s v)
  | emplaceBack v => exact unlessFaulted_withTurns h (ruleIgnoresTurns_insertBack s v)
  | popFront =>
    exact unlessFaulted_withTurns h
      (ruleIgnoresTurns_ite rfl (ruleIgnoresTurns_ite rfl (ruleIgnoresTurns_memRead fun _ => rfl)))
  | popBack =>
    exact unlessFaulted_withTurns h (ruleIgnoresTurns_ite rfl (ruleIgnoresTurns_ite rfl
      (ruleIgnoresTurns_memRead (s := { s with count := s.count - 1 }) fun _ => rfl)))
  | reset => exact unlessFaulted_withTurns h rfl
  | resize n =>
    refine unlessFaulted_withTurns h ?_
    simp only [RuleIgnoresTurns]
    split_ifs <;> rfl
  | iterBegin => exact unlessFaulted_withTurns h rfl
  | iterNext =>
    exact unlessFaulted_withTurns h
      (ruleIgnoresTurns_ite rfl (ruleIgnoresTurns_ite rfl (ruleIgnoresTurns_memRead fun _ => rfl)))
  | readCsr c =>
    simp only [exec, execReadCsr] at h ⊢
    cases hc : csrOf c with
    | some csr =>
      simp only [hc] at h ⊢
      cases h
      cases csr <;> rfl
    | none =>
      simp only [hc] at h ⊢
      exact unlessFaulted_withTurns h rfl

end Sys2Proof.Machine

/-! SUPPORT. Every command runs to a next state from a state that meets the invariant (20_memory.md R47), and a
command that fits its word keeps the invariant. -/

namespace Sys2Proof.Machine

variable {s : State}

/-! ### Values that fit the response word (30_encoding.md R75) -/

theorem lt_two_pow_idxW {p : Params} (hp : p.Legal) {n : Nat} (hn : n ≤ p.capMax) : n < 2 ^ p.idxW := by
  obtain ⟨-, hidx, hmax, -, -⟩ := hp
  have hlt : 2 ^ (p.idxW - 1) < 2 ^ p.idxW := Nat.pow_lt_pow_right (by omega) (by omega)
  omega

theorem causeCode_lt {p : Params} (hp : p.Legal) (c : Cause) : (causeCode c).toNat < 2 ^ p.idxW := by
  obtain ⟨-, hidx, -, -, -⟩ := hp
  exact (causeCode c).isLt.trans_le (Nat.pow_le_pow_right (by omega) (by omega))

theorem readSlot_lt (h : s.Inv) (k : Nat) : readSlot s k < 2 ^ s.params.w := by
  obtain ⟨hp, -, hwf, -⟩ := h
  exact memoryRead_lt hp hwf

theorem count_lt (h : s.Inv) : s.count < 2 ^ s.params.idxW := by
  obtain ⟨hp, hcap, -, hcount, -⟩ := h
  exact lt_two_pow_idxW hp (hcount.trans hcap)

theorem csrValue_lt (h : s.Inv) (c : Csr) : csrValue s c < 2 ^ s.params.idxW := by
  obtain ⟨hp, hcap, -, hcount, hfront, hcursor, -⟩ := h
  have hf : s.frontIndex ≤ s.capacity := by
    rcases Nat.eq_zero_or_pos s.capacity with hc | hc
    · exact (hfront.2 hc).le.trans (Nat.zero_le _)
    · exact (hfront.1 hc).le
  cases c with
  | status => exact BitVec.isLt _
  | capacity => exact lt_two_pow_idxW hp hcap
  | count => exact lt_two_pow_idxW hp (hcount.trans hcap)
  | front => exact lt_two_pow_idxW hp (hf.trans hcap)
  | iterPos => exact lt_two_pow_idxW hp hcursor.2

/-! ### The updates a command is made of keep the invariant -/

theorem inv_respond (h : s.Inv) {st : Status} {rv rd : Nat} (hv : rv < 2 ^ s.params.idxW)
    (hd : rd < 2 ^ s.params.w) : (respond s st rv rd).Inv := by
  obtain ⟨hp, hcap, hwf, hcount, hfront, hcursor, hfault, -⟩ := h
  exact ⟨hp, hcap, hwf, hcount, hfront, hcursor, hfault, by simp [responseFits, hv, hd]⟩

/-- A response without an element. -/
theorem inv_answer (h : s.Inv) {st : Status} {rv : Nat} (hv : rv < 2 ^ s.params.idxW) :
    (respond s st rv 0).Inv := inv_respond h hv (by positivity)

theorem inv_raiseFault (h : s.Inv) {c : Cause} (hc : c ≠ .none) : (raiseFault s c).Inv := by
  refine inv_answer ?_ (causeCode_lt h.1 c)
  obtain ⟨hp, hcap, hwf, hcount, hfront, hcursor, -, hrsp⟩ := h
  exact ⟨hp, hcap, hwf, hcount, hfront, hcursor, by simp [FaultCoherent, hc], hrsp⟩

/-- A mutating command's new buffer, with the cursor invalidated (44_iteration.md R142). -/
theorem inv_mutated (h : s.Inv) {cap f n : Nat} {m : Memory} (hcap : cap ≤ s.params.capMax)
    (hwf : Memory.wf s.params cap m) (hn : n ≤ cap) (hf : (0 < cap → f < cap) ∧ (cap = 0 → f = 0)) :
    (invalidate { s with capacity := cap, storage := m, frontIndex := f, count := n }).Inv := by
  obtain ⟨hp, -, -, -, -, ⟨-, hpos⟩, hfault, hrsp⟩ := h
  exact ⟨hp, hcap, hwf, hn, hf, ⟨by simp, hpos⟩, hfault, hrsp⟩

theorem inv_cursor (h : s.Inv) {valid : Bool} {pos : Nat} (hpos : pos ≤ s.count) :
    ({ s with iterValid := valid, iterPos := pos } : State).Inv := by
  obtain ⟨hp, hcap, hwf, hcount, hfront, -, hfault, hrsp⟩ := h
  exact ⟨hp, hcap, hwf, hcount, hfront, ⟨fun _ => hpos, hpos.trans (hcount.trans hcap)⟩, hfault, hrsp⟩

theorem inv_noop (h : s.Inv) : (noop s).Inv := by
  have ⟨_, hcap, hwf, hcount, hfront, _⟩ := h
  exact inv_answer (inv_mutated h hcap hwf hcount hfront) (by positivity)

/-! ### Every command -/

/-- The command rule `r` comes to a state of which `P` holds. -/
abbrev RuleReaches (P : State → Prop) (r : Except Fault State) : Prop := ∃ t, r = .ok t ∧ P t

/-- The outcome is a next state of which `P` holds. -/
abbrev Reaches (P : State → Prop) (o : Host.Outcome State Fault Refusal) : Prop := ∃ t, o = .next t ∧ P t

section
variable {P : State → Prop} {r : Except Fault State}

/-- A guarded rule reaches what the rule reaches and the answer of the FAULTED state satisfies. -/
theorem unlessFaulted_reaches (hf : P (answerFaulted s)) (hr : RuleReaches P r) : Reaches P (unlessFaulted s r) := by
  obtain ⟨t, rfl, ht⟩ := hr
  cases hs : s.fault with
  | true => exact ⟨_, unlessFaulted_of_faulted hs _, hf⟩
  | false => exact ⟨t, unlessFaulted_of_running hs _, ht⟩

theorem ruleReaches_ok {t : State} (h : P t) : RuleReaches P (.ok t) := ⟨t, rfl, h⟩

theorem ruleReaches_memRead {u : State} {k : Nat} {f : Nat → State} (hk : k < u.capacity)
    (hf : P (f (readSlot u k))) : RuleReaches P (memRead u k >>= fun v => pure (f v)) :=
  ⟨_, memRead_then_ok.mpr ⟨hk, rfl⟩, hf⟩

theorem ruleReaches_ite {c : Prop} [Decidable c] {r' : Except Fault State} (h : c → RuleReaches P r)
    (h' : ¬ c → RuleReaches P r') : RuleReaches P (if c then r else r') := by
  split_ifs with hc
  · exact h hc
  · exact h' hc

end

theorem moduloDec_lt {cap i : Nat} (h : i < cap) : moduloDec cap i < cap := by
  unfold moduloDec
  split_ifs <;> omega

theorem slot_lt {p : Nat} (h : 0 < s.capacity) : slot s p < s.capacity := Nat.mod_lt _ h

/-- An insertion counts up to the capacity. -/
theorem insertedCount_le {n cap : Nat} (h : n ≤ cap) : (if n < cap then n + 1 else n) ≤ cap := by
  split_ifs <;> omega

theorem insertFront_reaches (h : s.Inv) (v : Nat) :
    RuleReaches (fun t => v < 2 ^ s.params.w → t.Inv) (insertFront v s) := by
  have ⟨hp, hcap, hwf, hcount, hfront, _⟩ := h
  rcases Nat.eq_zero_or_pos s.capacity with hc | hc
  · exact ⟨noop s, by simp [insertFront, hc], fun _ => inv_noop h⟩
  · have hdec := moduloDec_lt (hfront.1 hc)
    have hn := insertedCount_le hcount
    exact ⟨_, insertFront_eq hc hdec, fun hv =>
      inv_answer (inv_mutated h hcap (wf_memoryWrite hwf hdec hv) hn ⟨fun _ => hdec, by omega⟩)
        (lt_two_pow_idxW hp (hn.trans hcap))⟩

theorem insertBack_reaches (h : s.Inv) (v : Nat) :
    RuleReaches (fun t => v < 2 ^ s.params.w → t.Inv) (insertBack v s) := by
  have ⟨hp, hcap, hwf, hcount, hfront, _⟩ := h
  rcases Nat.eq_zero_or_pos s.capacity with hc | hc
  · exact ⟨noop s, by simp [insertBack, hc], fun _ => inv_noop h⟩
  · have hn := insertedCount_le hcount
    have hf : (if s.count < s.capacity then s.frontIndex else moduloInc s.capacity s.frontIndex) < s.capacity := by
      split_ifs
      · exact hfront.1 hc
      · exact Nat.mod_lt _ hc
    exact ⟨_, insertBack_eq hc, fun hv =>
      inv_answer (inv_mutated h hcap (wf_memoryWrite hwf (slot_lt hc) hv) hn ⟨fun _ => hf, by omega⟩)
        (lt_two_pow_idxW hp (hn.trans hcap))⟩

theorem ruleReaches_raiseFault (h : s.Inv) {c : Cause} (hc : c ≠ .none) :
    RuleReaches State.Inv (.ok (raiseFault s c)) := ruleReaches_ok (inv_raiseFault h hc)

theorem ruleReaches_answerElement (h : s.Inv) {rv k : Nat} (hrv : rv ≤ s.count) (hk : k < s.capacity) :
    RuleReaches State.Inv (answerElement s rv k) :=
  ruleReaches_memRead hk (inv_respond h (hrv.trans_lt (count_lt h)) (readSlot_lt h k))

/-- Every command runs to a next state, and one that fits its word keeps the invariant. -/
theorem exec_reaches_inv (h : s.Inv) (i : Instr) : Reaches (fun t => i.WellFormed s.params → t.Inv) (exec i s) := by
  have ⟨hp, hcap, hwf, hcount, hfront, hcursor, _⟩ := h
  have hfaulted : (answerFaulted s).Inv := inv_answer h (by positivity)
  have guarded : ∀ {r}, RuleReaches State.Inv r →
      Reaches (fun t => i.WellFormed s.params → t.Inv) (unlessFaulted s r) := fun ⟨t, ht, hinv⟩ =>
    unlessFaulted_reaches (fun _ => hfaulted) ⟨t, ht, fun _ => hinv⟩
  have inserted : ∀ {v r}, (i.WellFormed s.params → v < 2 ^ s.params.w) →
      RuleReaches (fun t => v < 2 ^ s.params.w → t.Inv) r →
      Reaches (fun t => i.WellFormed s.params → t.Inv) (unlessFaulted s r) := fun hv ⟨t, ht, hinv⟩ =>
    unlessFaulted_reaches (fun _ => hfaulted) ⟨t, ht, fun hw => hinv (hv hw)⟩
  have hpos : 0 < s.count → 0 < s.capacity := fun hc => hc.trans_le hcount
  cases i with
  | size => exact guarded (ruleReaches_ok (inv_answer h (count_lt h)))
  | front =>
    exact guarded (ruleReaches_ite (fun _ => ruleReaches_raiseFault h (by decide)) fun hc =>
      ruleReaches_answerElement h (Nat.zero_le _) (hfront.1 (hpos (by omega))))
  | back =>
    exact guarded (ruleReaches_ite (fun _ => ruleReaches_raiseFault h (by decide)) fun hc =>
      ruleReaches_answerElement h (Nat.sub_le _ _) (slot_lt (hpos (by omega))))
  | atIndex p =>
    exact guarded (ruleReaches_ite (fun _ => ruleReaches_raiseFault h (by decide)) fun hc =>
      ruleReaches_answerElement h (by omega) (slot_lt (hpos (by omega))))
  | pushFront v => exact inserted of_decide_eq_true (insertFront_reaches h v)
  | pushBack v => exact inserted of_decide_eq_true (insertBack_reaches h v)
  | emplaceFront v => exact inserted of_decide_eq_true (insertFront_reaches h v)
  | emplaceBack v => exact inserted of_decide_eq_true (insertBack_reaches h v)
  | popFront =>
    refine guarded (ruleReaches_ite (fun _ => ruleReaches_ok (inv_noop h)) fun hc =>
      ruleReaches_ite (fun _ => ruleReaches_raiseFault h (by decide)) fun hn =>
        ruleReaches_memRead (hfront.1 (by omega)) ?_)
    exact inv_respond (inv_mutated h hcap hwf (by omega) ⟨fun _ => Nat.mod_lt _ (by omega), by omega⟩)
      ((Nat.sub_le _ _).trans_lt (count_lt h)) (readSlot_lt h _)
  | popBack =>
    refine guarded (ruleReaches_ite (fun _ => ruleReaches_ok (inv_noop h)) fun hc =>
      ruleReaches_ite (fun _ => ruleReaches_raiseFault h (by decide)) fun hn =>
        ruleReaches_memRead (slot_lt (Nat.pos_of_ne_zero hc)) ?_)
    exact inv_respond (inv_mutated h hcap hwf (by omega) hfront)
      ((Nat.sub_le _ _).trans_lt (count_lt h)) (readSlot_lt h _)
  | reset =>
    exact guarded (ruleReaches_ok (inv_answer (inv_mutated h hcap hwf (Nat.zero_le _) ⟨id, fun _ => rfl⟩)
      (by positivity)))
  | resize n =>
    refine guarded (ruleReaches_ok ?_)
    split_ifs with hn
    · exact inv_raiseFault h (by decide)
    · exact inv_answer (inv_mutated h (by omega) (wf_nil _ n) (Nat.zero_le _) ⟨id, fun _ => rfl⟩)
        (lt_two_pow_idxW hp (by omega))
  | iterBegin => exact guarded (ruleReaches_ok (inv_answer (inv_cursor h (Nat.zero_le _)) (count_lt h)))
  | iterNext =>
    refine guarded (ruleReaches_ite (fun _ => ruleReaches_raiseFault h (by decide)) fun hv =>
      ruleReaches_ite (fun _ => ruleReaches_ok (inv_answer h (count_lt h))) fun hne => ?_)
    have hlt : s.iterPos < s.count := lt_of_le_of_ne (hcursor.1 (by simpa using hv)) hne
    exact ruleReaches_memRead (slot_lt (hpos (by omega)))
      (inv_respond (inv_cursor h hlt) (hlt.trans (count_lt h)) (readSlot_lt h _))
  | readCsr c =>
    simp only [exec, execReadCsr]
    split
    · exact ⟨_, rfl, fun _ => inv_answer h (csrValue_lt h _)⟩
    · exact guarded (ruleReaches_raiseFault h (by decide))

end Sys2Proof.Machine

/-! The scope of the engine (00_scope.md): illegal parameters, what every step keeps, and commands over the ports
as atomic steps. -/

namespace Sys2Proof.Machine

variable {s t : State}

/-- Settles O16: the first test of a step. -/
theorem illegalParametersAreRefused : Obligations.IllegalParametersAreRefused := by
  intro s hp
  rw [step, if_neg hp]

theorem hostTurn_sameHost {turn : PortInputs} (h : hostTurn turn s = .next t) : SameHost s t := by
  rcases hostTurn_cases h with ⟨-, rfl⟩ | ⟨-, -, -, rfl⟩ | ⟨-, -, -, rfl⟩ | ⟨-, -, -, rfl⟩ | ⟨-, -, w, -, ht⟩
  · exact ⟨rfl, rfl⟩
  · exact ⟨rfl, rfl⟩
  · exact ⟨rfl, rfl⟩
  · exact ⟨rfl, rfl⟩
  · exact (acceptWord_answers ht).1

/-- Settles O24: `step` takes one turn off the list, and no case of a turn changes parameters or turns. -/
theorem stepsKeepParametersAndUseOneTurn : Obligations.StepsKeepParametersAndUseOneTurn := by
  intro s t h
  obtain ⟨-, ⟨hi, rfl⟩ | ⟨turn, rest, hi, ht⟩⟩ := step_cases h
  · simp [hi]
  · obtain ⟨hparams, hinputs⟩ := hostTurn_sameHost ht
    exact ⟨hparams, by rw [hinputs, hi]; rfl⟩

/-! ### Commands over the ports -/

/-- The word of a well-formed command runs that command. -/
theorem acceptWord_encode {i : Instr} (h : i.WellFormed s.params) :
    acceptWord (encode s.params i).toNat s = exec i s := by
  simp [acceptWord, decode_encode h]

theorem hostTurn_offer (hr : s.rsp = none) (w : Nat) : hostTurn (offer w) s = acceptWord w s := by
  simp [hostTurn, rspValid, offer, hr]

theorem hostTurn_takeResponse {rsp : Response} (hr : s.rsp = some rsp) :
    hostTurn takeResponse s = .next { s with rsp := none } := by
  simp [hostTurn, rspValid, takeResponse, hr]

/-- The step of a legal engine is the next turn of its host. -/
theorem step_withTurns_cons (hp : s.params.Legal) (turn : PortInputs) (rest : List PortInputs) :
    step (s.withTurns (turn :: rest)) = hostTurn turn (s.withTurns rest) := if_pos hp

theorem takenWord_takeResponse {rsp : Response} (hr : s.rsp = some rsp) (rest : List PortInputs) :
    takenWord (s.withTurns (takeResponse :: rest)) = some (responseWord s.params rsp).toNat := by
  simp [takenWord, rspWord, rspValid, takeResponse, hr]

/-- `s` once its response has been taken. -/
abbrev State.taken (s : State) : State := { s with rsp := none }

theorem inv_taken (h : s.Inv) : s.taken.Inv := by
  obtain ⟨hp, hcap, hwf, hcount, hfront, hcursor, hfault, -⟩ := h
  exact ⟨hp, hcap, hwf, hcount, hfront, hcursor, hfault, rfl⟩

/-- The host's first two turns for a sequence of commands: the first command runs, and its response word is
taken. -/
theorem run_turnsOf_cons {p : Params} {i : Instr} {rsp : Response} (hp : s.params = p) (hs : s.Inv)
    (hr : s.rsp = none) (hw : i.WellFormed p) (he : exec i s = .next t) (ht : t.rsp = some rsp)
    (is : List Instr) (k : Nat) :
    core.run (k + 2) (s.withTurns (turnsOf p (i :: is))) = core.run k (t.taken.withTurns (turnsOf p is)) ∧
    takenWords (k + 2) (s.withTurns (turnsOf p (i :: is))) =
      (responseWord p rsp).toNat :: takenWords k (t.taken.withTurns (turnsOf p is)) := by
  subst hp
  obtain ⟨⟨hparams, -⟩, -⟩ := exec_answers he
  have hoffer : step (s.withTurns (turnsOf s.params (i :: is))) =
      .next (t.withTurns (takeResponse :: turnsOf s.params is)) := calc
    _ = hostTurn (offer (encode s.params i).toNat) (s.withTurns (takeResponse :: turnsOf s.params is)) :=
      step_withTurns_cons hs.1 _ _
    _ = acceptWord (encode s.params i).toNat (s.withTurns (takeResponse :: turnsOf s.params is)) :=
      hostTurn_offer (by exact hr) _
    _ = exec i (s.withTurns (takeResponse :: turnsOf s.params is)) := acceptWord_encode hw
    _ = .next (t.withTurns (takeResponse :: turnsOf s.params is)) := exec_withTurns he _
  have htake : step (t.withTurns (takeResponse :: turnsOf s.params is)) =
      .next (t.taken.withTurns (turnsOf s.params is)) :=
    (step_withTurns_cons (hparams ▸ hs.1) _ _).trans (hostTurn_takeResponse ht)
  constructor
  · rw [run_of_step hoffer, run_of_step htake]
  · rw [takenWords_of_step hoffer, takenWords_of_step htake, takenWord_takeResponse ht, hparams]
    rfl

/-- A sequence of commands is answered by the first command's response and then the answers of the others. -/
theorem answers_cons {i : Instr} {is : List Instr} {rsp : Response} (he : exec i s = .next t)
    (ht : t.rsp = some rsp) :
    answers (i :: is) s = (answers is t.taken).map (fun a => (rsp :: a.1, a.2)) := by
  simp only [answers, he, ht]

/-- The refinement behind O22, for an engine with parameters `p`, by induction on the commands, two turns each. -/
theorem run_turnsOf_eq_answers {p : Params} (is : List Instr) (s : State) (hp : s.params = p) (hs : s.Inv)
    (hr : s.rsp = none) (hw : ∀ i ∈ is, i.WellFormed p) :
    ∃ rs t, answers is (s.withTurns []) = some (rs, t) ∧ rs.length = is.length ∧
      core.run (2 * is.length) (s.withTurns (turnsOf p is)) = .next t ∧
      takenWords (2 * is.length) (s.withTurns (turnsOf p is)) = rs.map (fun r => (responseWord p r).toNat) := by
  induction is generalizing s with
  | nil => exact ⟨[], s.withTurns [], rfl, rfl, rfl, rfl⟩
  | cons i is ih =>
    have hwi : i.WellFormed p := hw i (by simp)
    obtain ⟨u, he, hu⟩ := exec_reaches_inv hs i
    obtain ⟨⟨hparams, -⟩, rsp, hrsp⟩ := exec_answers he
    obtain ⟨rs, t, hans, hlen, hrun, htaken⟩ := ih u.taken (hparams.trans hp) (inv_taken (hu (hp ▸ hwi))) rfl
      fun j hj => hw j (by simp [hj])
    obtain ⟨hrun', htaken'⟩ := run_turnsOf_cons hp hs hr hwi he hrsp is (2 * is.length)
    refine ⟨rsp :: rs, t, ?_, congrArg Nat.succ hlen, hrun'.trans hrun, ?_⟩
    · rw [answers_cons (exec_withTurns he []) hrsp, hans]
      rfl
    · rw [List.map_cons, ← htaken]
      exact htaken'

/-- Settles O22: the refinement at the engine's own parameters. -/
theorem portTurnsRunCommandsInOrder : Obligations.PortTurnsRunCommandsInOrder :=
  fun is s hs hr hw => run_turnsOf_eq_answers is s rfl hs hr hw

end Sys2Proof.Machine

/-! SUPPORT. A command rule said by all it can come to, the commands that write storage or capacity, and the
commands of a FAULTED engine. -/

namespace Sys2Proof.Machine

variable {s t : State} {i : Instr} {r : Except Fault State} {P : State → Prop}

/-! ### All that a command rule can come to -/

/-- Whatever state the command rule `r` comes to, `P` holds of it. -/
abbrev RuleOnly (P : State → Prop) (r : Except Fault State) : Prop := ∀ t, r = .ok t → P t

theorem ruleOnly_ok (h : P t) : RuleOnly P (.ok t) := by
  rintro _ ⟨⟩
  exact h

theorem ruleOnly_memRead {u : State} {k : Nat} {f : Nat → State} (h : ∀ v, P (f v)) :
    RuleOnly P (memRead u k >>= fun v => pure (f v)) := by
  intro t ht
  obtain ⟨-, rfl⟩ := memRead_then_ok.mp ht
  exact h _

theorem ruleOnly_ite {c : Prop} [Decidable c] {r' : Except Fault State} (h : RuleOnly P r) (h' : RuleOnly P r') :
    RuleOnly P (if c then r else r') := by
  split_ifs
  · exact h
  · exact h'

/-- A guarded rule comes to the answer of the FAULTED state, or to what the rule comes to. -/
theorem unlessFaulted_only (h : unlessFaulted s r = .next t) (hf : P (answerFaulted s))
    (hr : s.fault = false → RuleOnly P r) : P t := by
  rcases unlessFaulted_cases h with ⟨-, rfl⟩ | ⟨hrun, ht⟩
  · exact hf
  · exact hr hrun t ht

/-! ### Who writes storage and capacity (10_state.md R21, R22) -/

/-- `t` has the storage of `s`, slot for slot, of the same capacity and in the same engine. -/
abbrev SameStore (s t : State) : Prop :=
  t.params = s.params ∧ t.capacity = s.capacity ∧ t.storage = s.storage

/-- The command is a push or an emplace (41_insertion.md). -/
abbrev IsInsertion (i : Instr) : Prop :=
  (∃ v, i = .pushFront v) ∨ (∃ v, i = .pushBack v) ∨ (∃ v, i = .emplaceFront v) ∨ ∃ v, i = .emplaceBack v

/-- What the command `i` may do from `s` to `t` to storage and capacity: nothing; write storage, as an unfaulted
insertion; or replace both, as an unfaulted RESIZE within CAP_MAX. -/
abbrev StoreEffect (i : Instr) (s t : State) : Prop :=
  SameStore s t ∨ (IsInsertion i ∧ t.fault = false ∧ t.capacity = s.capacity) ∨
    (i = .resize t.capacity ∧ t.fault = false ∧ t.capacity ≤ s.params.capMax)

theorem sameSlots_of_sameStore (h : SameStore s t) : SameSlots s t := by
  obtain ⟨hparams, -, hstorage⟩ := h
  intro a
  rw [readSlot, readSlot, hparams, hstorage]

theorem ruleOnly_insertFront (hi : IsInsertion i) (hs : s.fault = false) (v : Nat) :
    RuleOnly (StoreEffect i s) (insertFront v s) := by
  intro t ht
  rcases insertFront_ok ht with ⟨-, rfl⟩ | ⟨-, -, rfl⟩
  · exact .inl ⟨rfl, rfl, rfl⟩
  · exact .inr (.inl ⟨hi, hs, rfl⟩)

theorem ruleOnly_insertBack (hi : IsInsertion i) (hs : s.fault = false) (v : Nat) :
    RuleOnly (StoreEffect i s) (insertBack v s) := by
  intro t ht
  rcases insertBack_ok ht with ⟨-, rfl⟩ | ⟨-, rfl⟩
  · exact .inl ⟨rfl, rfl, rfl⟩
  · exact .inr (.inl ⟨hi, hs, rfl⟩)

/-- All that a command can do to storage and capacity. -/
theorem exec_storeEffect (h : exec i s = .next t) : StoreEffect i s t := by
  have kept : ∀ {r}, unlessFaulted s r = .next t → RuleOnly (SameStore s) r → StoreEffect i s t :=
    fun h hr => .inl (unlessFaulted_only h ⟨rfl, rfl, rfl⟩ fun _ => hr)
  have guarded : ∀ {r}, unlessFaulted s r = .next t → (s.fault = false → RuleOnly (StoreEffect i s) r) →
      StoreEffect i s t :=
    fun h hr => unlessFaulted_only h (.inl ⟨rfl, rfl, rfl⟩) hr
  have same : ∀ {u : State}, SameStore s u → RuleOnly (SameStore s) (.ok u) := ruleOnly_ok
  cases i with
  | size => exact kept h (same ⟨rfl, rfl, rfl⟩)
  | front | back | atIndex p =>
    exact kept h (ruleOnly_ite (same ⟨rfl, rfl, rfl⟩) (ruleOnly_memRead fun _ => ⟨rfl, rfl, rfl⟩))
  | pushFront v => exact guarded h fun hs => ruleOnly_insertFront (.inl ⟨v, rfl⟩) hs v
  | pushBack v => exact guarded h fun hs => ruleOnly_insertBack (.inr (.inl ⟨v, rfl⟩)) hs v
  | emplaceFront v => exact guarded h fun hs => ruleOnly_insertFront (.inr (.inr (.inl ⟨v, rfl⟩))) hs v
  | emplaceBack v => exact guarded h fun hs => ruleOnly_insertBack (.inr (.inr (.inr ⟨v, rfl⟩))) hs v
  | popFront | popBack =>
    exact kept h (ruleOnly_ite (same ⟨rfl, rfl, rfl⟩) (ruleOnly_ite (same ⟨rfl, rfl, rfl⟩)
      (ruleOnly_memRead fun _ => ⟨rfl, rfl, rfl⟩)))
  | reset => exact kept h (same ⟨rfl, rfl, rfl⟩)
  | resize n =>
    refine guarded h fun hs => ruleOnly_ok ?_
    split_ifs with hn
    · exact .inl ⟨rfl, rfl, rfl⟩
    · exact .inr (.inr ⟨rfl, hs, Nat.le_of_not_lt hn⟩)
  | iterBegin => exact kept h (same ⟨rfl, rfl, rfl⟩)
  | iterNext =>
    exact kept h (ruleOnly_ite (same ⟨rfl, rfl, rfl⟩) (ruleOnly_ite (same ⟨rfl, rfl, rfl⟩)
      (ruleOnly_memRead fun _ => ⟨rfl, rfl, rfl⟩)))
  | readCsr c =>
    simp only [exec, execReadCsr] at h
    split at h
    · cases h
      exact .inl ⟨rfl, rfl, rfl⟩
    · exact kept h (same ⟨rfl, rfl, rfl⟩)

/-! ### The FAULTED engine (60_exceptions.md R170) -/

/-- The outcome `o` is a next state that differs from `s` in the response port at most. -/
abbrev OnlyRespondsFrom (s : State) (o : Host.Outcome State Fault Refusal) : Prop :=
  ∃ rsp, o = .next { s with rsp := rsp }

theorem unlessFaulted_onlyResponds (hf : s.fault = true) (r : Except Fault State) :
    OnlyRespondsFrom s (unlessFaulted s r) := ⟨_, unlessFaulted_of_faulted hf r⟩

/-- While FAULTED a command changes nothing but the response port: all are guarded but a legal READ_CSR, which
answers at once. -/
theorem exec_of_faulted (hf : s.fault = true) (i : Instr) : OnlyRespondsFrom s (exec i s) := by
  cases i with
  | readCsr c =>
    simp only [exec, execReadCsr]
    split
    · exact ⟨_, rfl⟩
    · exact unlessFaulted_onlyResponds hf _
  | size | front | back | atIndex _ | pushFront _ | pushBack _ | emplaceFront _ | emplaceBack _ | popFront
  | popBack | reset | resize _ | iterBegin | iterNext => exact unlessFaulted_onlyResponds hf _

theorem acceptWord_of_faulted (hf : s.fault = true) (w : Nat) : OnlyRespondsFrom s (acceptWord w s) := by
  rcases acceptWord_cases (w := w) (s := s) with ⟨i, -, he⟩ | ⟨-, he⟩
  · exact he ▸ exec_of_faulted hf i
  · exact he ▸ unlessFaulted_onlyResponds hf _

/-- While FAULTED a turn without `rst` changes nothing but the response port. -/
theorem hostTurn_of_faulted {turn : PortInputs} (hf : s.fault = true) (hrst : turn.rst = false) :
    OnlyRespondsFrom s (hostTurn turn s) := by
  simp only [hostTurn, hrst, Bool.false_eq_true, if_false]
  split_ifs
  · exact ⟨_, rfl⟩
  · exact ⟨_, rfl⟩
  · cases turn.cmd with
    | none => exact ⟨_, rfl⟩
    | some w => exact acceptWord_of_faulted hf w

/-- While FAULTED a step without `rst` changes nothing but the ports. -/
theorem step_of_faulted (hp : s.params.Legal) (hf : s.fault = true) (hrst : ∀ turn ∈ s.inputs, turn.rst = false) :
    ∃ rsp, step s = .next { s with rsp := rsp, inputs := s.inputs.tail } := by
  cases hi : s.inputs with
  | nil =>
    have hidle : step s = .next s := by simp [step, hp, hi]
    have hsame : { s with inputs := [] } = s := by rw [← hi]
    exact ⟨s.rsp, hidle.trans (congrArg _ hsame.symm)⟩
  | cons turn rest =>
    obtain ⟨rsp, hturn⟩ := hostTurn_of_faulted (s := { s with inputs := rest }) hf (hrst turn (by simp [hi]))
    exact ⟨rsp, by simp [step, hp, hi, hturn]⟩

/-- While FAULTED any number of steps without `rst` changes nothing but the ports, by induction on the steps. -/
theorem run_of_faulted (k : Nat) (s : State) (hp : s.params.Legal) (hf : s.fault = true)
    (hrst : ∀ turn ∈ s.inputs, turn.rst = false) :
    ∃ rsp turns, core.run k s = .next { s with rsp := rsp, inputs := turns } := by
  induction k generalizing s with
  | zero => exact ⟨s.rsp, s.inputs, rfl⟩
  | succ k ih =>
    obtain ⟨rsp, hstep⟩ := step_of_faulted hp hf hrst
    rw [run_of_step hstep]
    exact ih _ hp hf fun turn ht => hrst turn (List.mem_of_mem_tail ht)

end Sys2Proof.Machine

/-! SUPPORT. What the decoder gives fits its word, STATUS bit by bit, and the state of hardware reset. -/

namespace Sys2Proof.Machine

variable {s : State}

/-- The operands that the opcode map passes on fit their fields when IDX and DATA do (30_encoding.md R73, R74). -/
theorem instrOf_wellFormed {p : Params} {op idx data : Nat} {i : Instr} (hidx : idx < 2 ^ p.idxW)
    (hdata : data < 2 ^ p.w) (h : instrOf op idx data = some i) : i.WellFormed p := by
  unfold instrOf at h
  split at h <;> cases h <;> simp [Instr.WellFormed, Instr.wellFormed, Params.fitsIdx, Params.fitsData, hidx, hdata]

theorem decode_wellFormed {p : Params} {w : p.Word} {i : Instr} (h : decode p w = .ok i) : i.WellFormed p :=
  instrOf_wellFormed (BitVec.isLt _) (BitVec.isLt _) (decode_ok.mp h).2

/-! ### STATUS (10_state.md R36) -/

/-- Zero extension to IDX_W bits keeps the eight bits: R10 asks for IDX_W of at least 8. -/
theorem statusValue_eq (h : s.params.Legal) : statusValue s = (statusBits s).toNat := by
  obtain ⟨-, hidx, -⟩ := h
  exact BitVec.toNat_setWidth_of_le hidx

/-- STATUS bit by bit. -/
theorem getLsbD_statusBits (s : State) (k : Nat) :
    (statusBits s).getLsbD k =
      if k = 0 then s.fault
      else if k < 5 then (causeCode s.cause).getLsbD (k - 1)
      else if k = 5 then s.iterValid
      else if k = 6 then emptyFlag s
      else if k = 7 then fullFlag s
      else false := by
  change (BitVec.ofBool (fullFlag s) ++ BitVec.ofBool (emptyFlag s) ++ BitVec.ofBool s.iterValid ++ causeCode s.cause ++
    BitVec.ofBool s.fault : BitVec (1 + 1 + 1 + 4 + 1)).getLsbD k = _
  simp only [BitVec.getLsbD_append, BitVec.getLsbD_ofBool]
  match k with
  | 0 | 1 | 2 | 3 | 4 | 5 | 6 | 7 => simp
  | k + 8 => simp

/-- The cause code stands in bits [4:1] of STATUS. -/
theorem statusBits_cause (s : State) : (statusBits s).toNat / 2 % 16 = (causeCode s.cause).toNat := by
  have hfield : (statusBits s).extractLsb' 1 4 = causeCode s.cause := by
    apply BitVec.eq_of_getLsbD_eq
    intro k hk
    rw [BitVec.getLsbD_extractLsb', getLsbD_statusBits, if_neg (by omega), if_pos (by omega)]
    simp [hk]
  rw [← hfield, BitVec.extractLsb'_toNat, Nat.shiftRight_eq_div_pow]

/-- STATUS after hardware reset (10_state.md R44). -/
theorem statusValue_hardwareReset {p : Params} (h : p.Legal) (turns : List PortInputs) :
    statusValue (State.hardwareReset p turns) = if p.capInit = 0 then 0xC0 else 0x40 := by
  rw [statusValue_eq h]
  by_cases hc : p.capInit = 0
  · simp [statusBits, fullFlag, emptyFlag, causeCode, hc]
  · simp [statusBits, fullFlag, emptyFlag, causeCode, hc, beq_false_of_ne (Ne.symm hc)]

/-! ### Hardware reset (10_state.md R44) -/

theorem inv_hardwareReset {p : Params} (h : p.Legal) (turns : List PortInputs) :
    (State.hardwareReset p turns).Inv := by
  have ⟨_, _, _, hinit, _⟩ := h
  exact ⟨h, hinit, wf_nil p _, Nat.zero_le _, ⟨id, fun _ => rfl⟩, ⟨fun _ => le_rfl, Nat.zero_le _⟩,
    by simp [FaultCoherent], rfl⟩

theorem launchPremises_hardwareReset {p : Params} (h : p.Legal) {turns : List PortInputs}
    (hrsv : RsvClear p turns) : LaunchPremises (State.hardwareReset p turns) :=
  ⟨h, Nat.zero_le _, ⟨id, fun _ => rfl⟩, fun _ => rfl, rfl, hrsv⟩

/-- The turns that send encoded commands offer no word with RSV ≠ 0 (30_encoding.md R72, R84). -/
theorem rsvClear_turnsOf (p : Params) (is : List Instr) : RsvClear p (turnsOf p is) := by
  intro turn hturn w hw
  obtain ⟨i, -, hi⟩ := List.mem_flatMap.mp hturn
  simp only [List.mem_cons, List.not_mem_nil, or_false] at hi
  rcases hi with rfl | rfl
  · obtain rfl : (encode p i).toNat = w := Option.some.inj hw
    simp [encode]
  · cases hw

end Sys2Proof.Machine

/-! The state of the engine (10_state.md): its invariant, its fault, who writes what, and its values after hardware
reset. -/

namespace Sys2Proof.Machine

variable {s t : State}

/-! ### Every step keeps the invariant -/

theorem acceptWord_keeps_inv {w : Nat} (hs : s.Inv) (h : acceptWord w s = .next t) : t.Inv := by
  rcases acceptWord_cases (w := w) (s := s) with ⟨i, hd, he⟩ | ⟨-, he⟩
  · obtain ⟨u, hu, hinv⟩ := exec_reaches_inv hs i
    obtain rfl : u = t := Host.Outcome.next.inj (hu.symm.trans (he ▸ h))
    exact hinv (decode_wellFormed hd)
  · exact unlessFaulted_only (he ▸ h) (inv_answer hs (by positivity))
      fun _ => ruleOnly_ok (inv_raiseFault hs (by decide))

theorem hostTurn_keeps_inv {turn : PortInputs} (hs : s.Inv) (h : hostTurn turn s = .next t) : t.Inv := by
  rcases hostTurn_cases h with ⟨-, rfl⟩ | ⟨-, -, -, rfl⟩ | ⟨-, -, -, rfl⟩ | ⟨-, -, -, rfl⟩ | ⟨-, -, w, -, ht⟩
  · exact inv_hardwareReset hs.1 _
  · exact inv_taken hs
  · exact hs
  · exact hs
  · exact acceptWord_keeps_inv hs ht

/-- Settles O19: no clause of the invariant looks at the turns to come, and every kind of turn keeps it. -/
theorem everyStepKeepsTheInvariant : Obligations.EveryStepKeepsTheInvariant := by
  intro s t hs h
  obtain ⟨-, ⟨-, rfl⟩ | ⟨turn, rest, -, ht⟩⟩ := step_cases h
  · exact hs
  · exact hostTurn_keeps_inv (s := s.withTurns rest) hs ht

/-- Settles O23: from a FAULTED engine a run reaches only states that differ in the ports. -/
theorem faultIsStickyUntilHardwareReset : Obligations.FaultIsStickyUntilHardwareReset := by
  intro k s hs hf hrst
  obtain ⟨rsp, turns, hrun⟩ := run_of_faulted k s hs.1 hf hrst
  refine ⟨_, hrun, hf, rfl, ⟨rfl, rfl, rfl, rfl, fun _ => rfl⟩, ⟨rfl, rfl⟩, ?_⟩
  rintro ⟨-, -, hno⟩
  exact absurd (hf.symm.trans hno) (by decide)

/-! ### Who writes what -/

/-- Settles O25: of the three effects on the store only that of RESIZE changes capacity. -/
theorem onlyResizeWritesCapacity : Obligations.OnlyResizeWritesCapacity := by
  intro s t i h hne
  rcases exec_storeEffect h with ⟨-, hcap, -⟩ | ⟨-, -, hcap⟩ | ⟨hi, -, hle⟩
  · exact absurd hcap hne
  · exact absurd hcap hne
  · exact ⟨hi, hle⟩

/-- Settles O26: the three effects on the store, capacity left aside. -/
theorem onlyInsertionAndResizeWriteStorage : Obligations.OnlyInsertionAndResizeWriteStorage := by
  intro s t i h
  rcases exec_storeEffect h with hsame | ⟨hi, hrun, -⟩ | ⟨hi, hrun, -⟩
  · exact .inr ⟨hsame.2.2, sameSlots_of_sameStore hsame⟩
  · refine .inl ⟨?_, hrun⟩
    rcases hi with hi | hi | hi | hi <;> simp [hi]
  · exact .inl ⟨by simp [hi], hrun⟩

/-! ### Capacity 0 (10_state.md R28) -/

/-- A rule that comes to the NOOP answers NOOP in an engine that is not FAULTED. -/
theorem answersNoop_of_rule {r : Except Fault State} (hf : s.fault = false) (hr : r = .ok (noop s)) :
    AnswersNoop (unlessFaulted s r) s :=
  ⟨noop s, ⟨by rw [unlessFaulted_of_running hf, hr, finish_ok], rfl⟩,
    ⟨rfl, rfl, rfl, rfl, fun _ => rfl⟩, rfl, rfl, ⟨rfl, rfl⟩, rfl, rfl⟩

/-- Settles O44: the capacity-0 test comes first in the rules of the pushes and pops; RESET and RESIZE have no such
test. -/
theorem zeroCapacityMutatorsAreNoops : Obligations.ZeroCapacityMutatorsAreNoops := by
  intro s ⟨_, _, _, hcount, _⟩ hf hc
  have front : ∀ v, insertFront v s = .ok (noop s) := fun _ => if_pos hc
  have back : ∀ v, insertBack v s = .ok (noop s) := fun _ => if_pos hc
  refine ⟨Nat.le_zero.mp (hc ▸ hcount),
    fun v => ⟨answersNoop_of_rule hf (front v), answersNoop_of_rule hf (back v),
      answersNoop_of_rule hf (front v), answersNoop_of_rule hf (back v)⟩,
    answersNoop_of_rule hf (if_pos hc), answersNoop_of_rule hf (if_pos hc),
    ⟨_, unlessFaulted_of_running hf _, rfl⟩, fun n hn => ?_⟩
  exact ⟨_, ⟨(unlessFaulted_of_running hf _).trans (by rw [if_neg hn.not_gt, finish_ok]), rfl⟩, rfl⟩

/-! ### STATUS and hardware reset -/

/-- Settles O50: STATUS is the concatenation of its fields, and is read bit by bit. -/
theorem statusRegisterFields : Obligations.StatusRegisterFields := by
  intro s hp
  have hvalue : csrValue s .status = (statusBits s).toNat := statusValue_eq hp
  have bit : ∀ k, (csrValue s .status).testBit k = (statusBits s).getLsbD k := fun k => by
    rw [hvalue, BitVec.testBit_toNat]
  refine ⟨?fault, ?cause, ?iterValid, ?empty, ?full, ?reserved, statusValue_hardwareReset hp⟩
  case fault => exact (bit 0).trans (getLsbD_statusBits s 0)
  case cause => rw [hvalue, statusBits_cause]
  case iterValid => exact (bit 5).trans (getLsbD_statusBits s 5)
  case empty => exact (bit 6).trans (getLsbD_statusBits s 6)
  case full => exact (bit 7).trans (getLsbD_statusBits s 7)
  case reserved => exact fun k hk => by rw [bit, BitVec.getLsbD_of_ge _ _ hk]

/-- Settles O17: the fields of the reset state; no slot is listed, so each reads as DEFAULT_VALUE. -/
theorem hardwareResetValues : Obligations.HardwareResetValues := by
  intro p turns hp
  have hslots : ∀ a, a < p.capInit → memRead (State.hardwareReset p turns) a = .ok p.defaultValue :=
    fun a ha => memRead_ok.mpr ⟨ha, rfl⟩
  exact ⟨rfl, hslots, rfl, rfl, rfl, rfl, rfl, rfl, rfl, statusValue_hardwareReset hp turns⟩

/-- Settles O18: reset of any legal engine, with any turns whose words have RSV = 0, and so of EX with none. -/
theorem resetMeetsTheInvariant : Obligations.ResetMeetsTheInvariant :=
  ⟨fun _ turns hp => ⟨inv_hardwareReset hp turns, launchPremises_hardwareReset hp⟩,
    fun p is hp => launchPremises_hardwareReset hp (rsvClear_turnsOf p is),
    inv_hardwareReset (by decide) []⟩

end Sys2Proof.Machine

/-! SUPPORT. One word over a byte-wide transport (20_memory.md R55), for command and response words alike. -/

namespace Sys2Proof

variable {p : Params}

theorem length_bytesOfWord (w : p.Word) : (bytesOfWord p w).length = p.wordBytes := length_bytesOf _ _

/-- Byte k of a word is its bits [8k+7:8k]. -/
theorem getElem?_bytesOfWord (w : p.Word) {k : Nat} (hk : k < p.wordBytes) :
    (bytesOfWord p w)[k]? = some (w.extractLsb' (8 * k) 8) := by
  have hshift : w.toNat / 256 ^ k = w.toNat >>> (8 * k) := by
    rw [Nat.shiftRight_eq_div_pow, pow_mul]
    norm_num
  rw [bytesOfWord, getElem?_bytesOf _ _ _ hk, hshift]
  rfl

/-- The bytes of a word give its number back: there is room for all its bits. -/
theorem numberOf_bytesOfWord (w : p.Word) : numberOf (bytesOfWord p w) = w.toNat := by
  rw [bytesOfWord, numberOf_bytesOf, Nat.mod_eq_of_lt (w.isLt.trans_le (two_pow_wordWidth_le p))]

/-- A word survives the transport. -/
theorem wordOfBytes_bytesOfWord (w : p.Word) : wordOfBytes p (bytesOfWord p w) = .ok w := by
  have hpadding : ¬ 2 ^ p.wordWidth ≤ w.toNat := Nat.not_le_of_lt w.isLt
  simp only [wordOfBytes, length_bytesOfWord, numberOf_bytesOfWord, ne_eq, not_true_eq_false, if_false, hpadding,
    BitVec.ofNat_toNat, BitVec.setWidth_eq]

/-- Decoding the bytes of a word is decoding the word. -/
theorem decodeBytes_bytesOfWord (w : p.Word) : decodeBytes p (bytesOfWord p w) = decode p w := by
  rw [decodeBytes, wordOfBytes_bytesOfWord]

end Sys2Proof

/-! SUPPORT. The index arithmetic (20_memory.md R50 to R54), the states RESET and RESIZE leave, and what a command
makes of a waiting response. -/

namespace Sys2Proof.Machine

variable {s t : State} {i : Instr}

/-! ### Index arithmetic -/

section
variable {cap j : Nat}

theorem moduloInc_lt (h : 0 < cap) : moduloInc cap j < cap := Nat.mod_lt _ h

/-- ModuloInc by cases (R50). -/
theorem moduloInc_eq (h : j < cap) : moduloInc cap j = if j + 1 < cap then j + 1 else 0 := by
  unfold moduloInc
  split_ifs with hlast
  · exact Nat.mod_eq_of_lt hlast
  · rw [show j + 1 = cap by omega, Nat.mod_self]

theorem moduloDec_moduloInc (h : j < cap) : moduloDec cap (moduloInc cap j) = j := by
  rw [moduloInc_eq h]
  by_cases hlast : j + 1 < cap
  · simp [moduloDec, hlast]
  · rw [if_neg hlast, moduloDec, if_pos rfl]
    omega

theorem moduloInc_moduloDec (h : j < cap) : moduloInc cap (moduloDec cap j) = j := by
  rw [moduloInc_eq (moduloDec_lt h)]
  by_cases hfirst : j = 0
  · simp only [moduloDec, if_pos hfirst]
    split_ifs <;> omega
  · simp only [moduloDec, if_neg hfirst]
    split_ifs <;> omega

/-- Slot's mod is one conditional subtraction (R52). -/
theorem slot_eq {p : Nat} (hf : s.frontIndex < s.capacity) (hp : p ≤ s.capacity) :
    slot s p = if s.frontIndex + p < s.capacity then s.frontIndex + p else s.frontIndex + p - s.capacity := by
  unfold slot
  split_ifs with hwrap
  · exact Nat.mod_eq_of_lt hwrap
  · rw [Nat.mod_eq_sub_mod (Nat.le_of_not_lt hwrap), Nat.mod_eq_of_lt (by omega)]

theorem slot_zero (hf : s.frontIndex < s.capacity) : slot s 0 = s.frontIndex := Nat.mod_eq_of_lt hf

theorem slot_capacity (hf : s.frontIndex < s.capacity) : slot s s.capacity = s.frontIndex := by
  rw [slot, Nat.add_mod_right, Nat.mod_eq_of_lt hf]

/-- From a front one further on, each position is the next one's slot (R54). -/
theorem slot_of_moduloInc_front (s : State) (p : Nat) :
    (moduloInc s.capacity s.frontIndex + p) % s.capacity = slot s (p + 1) := by
  rw [moduloInc, Nat.mod_add_mod, slot, Nat.add_assoc, Nat.add_comm 1]

/-- From a front one further back, each next position is this one's slot (R54). -/
theorem slot_of_moduloDec_front (hf : s.frontIndex < s.capacity) (p : Nat) :
    (moduloDec s.capacity s.frontIndex + p + 1) % s.capacity = slot s p :=
  calc (moduloDec s.capacity s.frontIndex + p + 1) % s.capacity
      = (moduloInc s.capacity (moduloDec s.capacity s.frontIndex) + p) % s.capacity := by
        rw [moduloInc, Nat.mod_add_mod, Nat.add_right_comm]
    _ = slot s p := by rw [moduloInc_moduloDec hf, slot]

end

/-! ### Bulk commands -/

/-- RESIZE n within CAP_MAX (43_bulk.md R131). -/
theorem exec_resize_eq {n : Nat} (hf : s.fault = false) (hn : n ≤ s.params.capMax) :
    exec (.resize n) s =
      .next (respond (invalidate (emptied { s with capacity := n, storage := [] })) .ok n 0) := by
  rw [exec, execResize, unlessFaulted_of_running hf, if_neg hn.not_gt, finish_ok]

/-- RESET (43_bulk.md R130). -/
theorem exec_reset_eq (hf : s.fault = false) :
    exec .reset s = .next (respond (invalidate (emptied s)) .ok 0 0) :=
  unlessFaulted_of_running hf _

/-! ### A command does not look at a waiting response -/

variable (rsp : Option Response)

theorem insertFront_ignores_rsp (s : State) (v : Nat) : insertFront v { s with rsp := rsp } = insertFront v s := by
  simp only [insertFront, memWrite]
  split_ifs <;> rfl

theorem insertBack_ignores_rsp (s : State) (v : Nat) : insertBack v { s with rsp := rsp } = insertBack v s := by
  rcases Nat.eq_zero_or_pos s.capacity with hc | hc
  · exact (if_pos hc).trans (if_pos hc).symm
  · exact (insertBack_eq (s := { s with rsp := rsp }) hc).trans (insertBack_eq (s := s) hc).symm

/-- Whatever response waits, a command comes to the same, since its own response takes that place (log 19). -/
theorem exec_ignores_rsp (i : Instr) (s : State) : exec i { s with rsp := rsp } = exec i s := by
  cases i with
  | pushFront v | emplaceFront v => exact congrArg (unlessFaulted s) (insertFront_ignores_rsp rsp s v)
  | pushBack v | emplaceBack v => exact congrArg (unlessFaulted s) (insertBack_ignores_rsp rsp s v)
  | size | front | back | atIndex _ | popFront | popBack | reset | resize _ | iterBegin | iterNext | readCsr _ => rfl

/-! ### Read-only commands (20_memory.md R58) -/

/-- SIZE, FRONT, BACK, AT and READ_CSR. -/
abbrev IsReadOnly (i : Instr) : Prop :=
  i ∈ [Instr.size, .front, .back] ∨ (∃ p, i = .atIndex p) ∨ ∃ c, i = .readCsr c

/-- If the fault bit of `t` is that of `s`, then `t` differs from `s` in the response port at most. -/
abbrev RespondsUnlessRaised (s t : State) : Prop := t.fault = s.fault → ∃ rsp, t = { s with rsp := rsp }

theorem respondsUnlessRaised_respond (s : State) (st : Status) (rv rd : Nat) :
    RespondsUnlessRaised s (respond s st rv rd) := fun _ => ⟨_, rfl⟩

/-- Taking a fault in an engine that is not FAULTED changes the fault bit. -/
theorem respondsUnlessRaised_raiseFault (hs : s.fault = false) (c : Cause) :
    RespondsUnlessRaised s (raiseFault s c) := fun hf => by simp [hs] at hf

/-- A read-only command raises a fault or changes nothing but the response port. -/
theorem exec_respondsUnlessRaised (hi : IsReadOnly i) (h : exec i s = .next t) : RespondsUnlessRaised s t := by
  have guarded : ∀ {r}, unlessFaulted s r = .next t → (s.fault = false → RuleOnly (RespondsUnlessRaised s) r) →
      RespondsUnlessRaised s t :=
    fun h hr => unlessFaulted_only h (respondsUnlessRaised_respond s _ _ _) hr
  have access : ∀ {c : Prop} [Decidable c] {cause rv k},
      unlessFaulted s (if c then .ok (raiseFault s cause) else answerElement s rv k) = .next t →
        RespondsUnlessRaised s t :=
    fun h => guarded h fun hs => ruleOnly_ite (ruleOnly_ok (respondsUnlessRaised_raiseFault hs _))
      (ruleOnly_memRead fun _ => respondsUnlessRaised_respond s _ _ _)
  simp only [IsReadOnly, List.mem_cons, List.not_mem_nil, or_false] at hi
  rcases hi with (rfl | rfl | rfl) | ⟨p, rfl⟩ | ⟨c, rfl⟩
  case inl.inl => exact guarded h fun _ => ruleOnly_ok (respondsUnlessRaised_respond s _ _ _)
  case inl.inr.inl | inl.inr.inr | inr.inl => exact access h
  case inr.inr =>
    simp only [exec, execReadCsr] at h
    split at h
    · cases h
      exact respondsUnlessRaised_respond s _ _ _
    · exact guarded h fun hs => ruleOnly_ok (respondsUnlessRaised_raiseFault hs _)

end Sys2Proof.Machine

/-! The memory of the engine and its byte transport (20_memory.md): words as bytes, slots and positions, and what
commands leave when they are given again. -/

namespace Sys2Proof.Machine

/-! ### Byte transport -/

/-- Settles O2: the transport carries every word, and decoding undoes the encoder. -/
theorem bytesCarryCommandWords : Obligations.BytesCarryCommandWords := fun _ _ hi =>
  ⟨(decodeBytes_bytesOfWord _).trans (decode_encode hi), length_bytesOfWord _, fun _ => getElem?_bytesOfWord _⟩

/-- Settles O53: the transport carries every word. -/
theorem bytesCarryResponseWords : Obligations.BytesCarryResponseWords := fun _ _ =>
  ⟨wordOfBytes_bytesOfWord _, length_bytesOfWord _, fun _ => getElem?_bytesOfWord _⟩

/-! ### Slots and positions -/

/-- Settles O20: the invariant keeps every slot access in range, so a next state is reached, and every next state
answers. -/
theorem everyCommandAnswers : Obligations.EveryCommandAnswers := by
  intro s i hs
  obtain ⟨t, ht, -⟩ := exec_reaches_inv hs i
  obtain ⟨-, r, hr⟩ := exec_answers ht
  exact ⟨t, r, ht, hr⟩

/-- Settles O29: the laws one by one. -/
theorem indexArithmeticLaws : Obligations.IndexArithmeticLaws := fun s hc hf _ =>
  ⟨fun _ hi => ⟨moduloDec_moduloInc hi, moduloInc_moduloDec hi⟩, slot_zero hf, slot_capacity hf,
    fun p _ => ⟨slot_lt hc, slot_of_moduloInc_front s p, slot_of_moduloDec_front hf p⟩⟩

/-- Settles O30: the formulas are the definitions; the cases and ranges are their lemmas. -/
theorem indexArithmeticByCases : Obligations.IndexArithmeticByCases := by
  intro s i p hi hf hp hcount
  exact ⟨rfl, moduloInc_eq hi, moduloInc_lt (by omega), rfl, moduloDec_lt hi, rfl, by omega,
    slot_eq hf (hp.trans hcount)⟩

/-! ### Commands given again -/

/-- Settles O43: RESIZE and RESET run again from the state they leave, and what they write does not depend on the
buffer they find, but for the capacity and slots that RESET keeps. -/
theorem bulkCommandsAreIdempotent : Obligations.BulkCommandsAreIdempotent := by
  intro s t n hf hn
  refine ⟨fun h => ?_, fun h => ?_⟩
  · cases (exec_resize_eq hf hn).symm.trans h
    exact ⟨⟨rfl, rfl, rfl, rfl, fun _ => rfl⟩, _, exec_resize_eq hf hn, rfl, rfl, rfl, rfl, fun _ => rfl⟩
  · cases (exec_reset_eq hf).symm.trans h
    exact ⟨_, exec_reset_eq hf, rfl, rfl, rfl, rfl, fun _ => rfl⟩

/-- Settles O51: without a fault only the response port has changed, and the command does not look at that. -/
theorem readOnlyCommandsRepeat : Obligations.ReadOnlyCommandsRepeat := by
  intro s t i hi h hf
  obtain ⟨rsp, rfl⟩ := exec_respondsUnlessRaised hi h hf
  exact (exec_ignores_rsp none i s).trans h

end Sys2Proof.Machine

/-! SUPPORT. The opcode map and the decoder on any word: which words are rejected, and which fields matter
(30_encoding.md R72 to R81). -/

namespace Sys2Proof.Machine

variable {idx idx' data data' : Nat} {p : Params}

/-- The opcode map has a command for every opcode but 0xF (30_encoding.md R78, R79). -/
theorem instrOf_eq_none {op : BitVec 4} : instrOf op.toNat idx data = none ↔ op = 0xF := by
  have hop : op.toNat < 16 := op.isLt
  rw [← BitVec.toNat_inj]
  unfold instrOf
  split <;> simp_all
  omega

/-- IDX matters to AT, RESIZE and READ_CSR alone (30_encoding.md R73). -/
theorem instrOf_ignores_idx {op : BitVec 4} (h : op ∉ [(0x3 : BitVec 4), 0xB, 0xE]) :
    instrOf op.toNat idx data = instrOf op.toNat idx' data := by
  simp only [List.mem_cons, List.not_mem_nil, or_false, not_or, ← BitVec.toNat_inj] at h
  obtain ⟨hat, hresize, hreadCsr⟩ := h
  unfold instrOf
  split <;> simp_all

/-- DATA matters to the pushes and emplaces alone (30_encoding.md R74). -/
theorem instrOf_ignores_data {op : BitVec 4} (h : op ∉ [(0x4 : BitVec 4), 0x5, 0x6, 0x7]) :
    instrOf op.toNat idx data = instrOf op.toNat idx data' := by
  simp only [List.mem_cons, List.not_mem_nil, or_false, not_or, ← BitVec.toNat_inj] at h
  obtain ⟨hpushFront, hpushBack, hemplaceFront, hemplaceBack⟩ := h
  unfold instrOf
  split <;> simp_all

/-- The decoder rejects for RSV or for the opcode, and for nothing else. -/
theorem decode_error_iff {w : p.Word} :
    (∃ e, decode p w = .error e) ↔ rsvField p w ≠ 0 ∨ opField p w = 0xF := by
  rw [← instrOf_eq_none (idx := (idxField p w).toNat) (data := (dataField p w).toNat)]
  unfold decode
  split_ifs with hrsv
  · cases instrOf (opField p w).toNat (idxField p w).toNat (dataField p w).toNat <;> simp [hrsv]
  · exact iff_of_true ⟨_, rfl⟩ (.inl hrsv)

/-- The decoder reads OP, RSV and the one operand field that the opcode uses. -/
theorem decode_congr {v v' : p.Word} (hop : opField p v = opField p v') (hrsv : rsvField p v = rsvField p v')
    (hidx : opField p v ∈ [(0x3 : BitVec 4), 0xB, 0xE] → idxField p v = idxField p v')
    (hdata : opField p v ∈ [(0x4 : BitVec 4), 0x5, 0x6, 0x7] → dataField p v = dataField p v') :
    decode p v = decode p v' := by
  have hinstr : instrOf (opField p v).toNat (idxField p v).toNat (dataField p v).toNat =
      instrOf (opField p v').toNat (idxField p v').toNat (dataField p v').toNat := by
    rw [← hop]
    calc instrOf (opField p v).toNat (idxField p v).toNat (dataField p v).toNat
        = instrOf (opField p v).toNat (idxField p v').toNat (dataField p v).toNat := by
          by_cases h : opField p v ∈ [(0x3 : BitVec 4), 0xB, 0xE]
          · rw [hidx h]
          · exact instrOf_ignores_idx h
      _ = instrOf (opField p v).toNat (idxField p v').toNat (dataField p v').toNat := by
          by_cases h : opField p v ∈ [(0x4 : BitVec 4), 0x5, 0x6, 0x7]
          · rw [hdata h]
          · exact instrOf_ignores_data h
  unfold decode
  rw [hrsv, hinstr]

end Sys2Proof.Machine

/-! SUPPORT. The assembler (30_encoding.md R84): what a line comes to, the mnemonics with an operand, and the
numerals. -/

namespace Sys2Proof.Machine

variable {p : Params} {line : List Char} {i : Instr}

/-! ### A line and its operand -/

/-- All that the last step of the assembler can answer. -/
theorem assembleCommand_ok {op v : Nat} :
    assembleCommand p op v = .ok i ↔ instrOf op v v = some i ∧ i.WellFormed p := by
  unfold assembleCommand
  cases instrOf op v v with
  | none => simp
  | some j =>
    by_cases hj : j.WellFormed p
    · simp only [hj, if_true, Except.ok.injEq, Option.some.injEq]
      exact ⟨fun h => ⟨h, h ▸ hj⟩, And.left⟩
    · simp only [hj, if_false, Option.some.injEq]
      exact iff_of_false nofun fun ⟨h, hi⟩ => hj (h ▸ hi)

/-- A command of the opcode map that does not fit is rejected for its operand's range. -/
theorem assembleCommand_of_not_wellFormed {op v : Nat} (hi : instrOf op v v = some i) (hw : ¬ i.WellFormed p) :
    assembleCommand p op v = .error .operandRange := by
  simp [assembleCommand, hi, hw]

/-- A line that gives a command gives one that the last step of the assembler accepted. -/
theorem assembleLine_ok (h : assembleLine p line = .ok (some i)) : ∃ op v, assembleCommand p op v = .ok i := by
  have accepted : ∀ {op v}, (assembleCommand p op v).map some = .ok (some i) → assembleCommand p op v = .ok i := by
    intro op v hmap
    cases hc : assembleCommand p op v with
    | error e => simp [hc, Except.map] at hmap
    | ok j => simpa [hc, Except.map] using hmap
  unfold assembleLine at h
  split at h
  · cases h
  · split at h
    · cases h
    · split_ifs at h
      exact ⟨_, _, accepted h⟩
    · split at h
      · split at h
        · exact ⟨_, _, accepted h⟩
        · cases h
      · cases h

/-- A line of a mnemonic that takes an operand and one operand with a value. -/
theorem assembleLine_of_operand {name operand : List Char} {op v : Nat} {kind : OperandKind}
    (hwords : wordsOf [] (stripComment line) = [name, operand]) (hname : mnemonics.lookup name = some (op, kind))
    (hkind : kind ≠ .absent) (hv : operandValue kind operand = some v) :
    assembleLine p line = (assembleCommand p op v).map some := by
  cases kind with
  | absent => exact absurd rfl hkind
  | index | data | csr => simp [assembleLine, hwords, hname, hv]

/-- The width of the field that an operand goes to (30_encoding.md R73, R74). -/
abbrev operandWidth (p : Params) (kind : OperandKind) : Nat := if kind = .data then p.w else p.idxW

/-- The field of a command that an operand goes to. -/
abbrev operandOf (kind : OperandKind) (i : Instr) : Nat := if kind = .data then dataOf i else idxOf i

/-- The opcodes whose operand is of this kind: an element for the pushes and emplaces, an IDX for AT, RESIZE and
READ_CSR. -/
abbrev TakesOperand (op : Nat) (kind : OperandKind) : Prop :=
  if kind = .data then op ∈ [0x4, 0x5, 0x6, 0x7] else op ∈ [0x3, 0xB, 0xE]

/-- The table of mnemonics gives an operand to these opcodes alone. -/
theorem takesOperand_of_lookup {name : List Char} {op : Nat} {kind : OperandKind}
    (hname : mnemonics.lookup name = some (op, kind)) (hkind : kind ≠ .absent) : TakesOperand op kind := by
  have table : ∀ e ∈ mnemonics, e.2.2 ≠ .absent → TakesOperand e.2.1 e.2.2 := by decide
  obtain ⟨before, after, hsplit, -⟩ := List.lookup_eq_some_iff.mp hname
  exact table (name, op, kind) (by simp [hsplit]) hkind

/-- The opcode map puts the operand whole into the field of its kind; the command fits if the operand does. -/
theorem instrOf_operand {op : Nat} {kind : OperandKind} (h : TakesOperand op kind) (p : Params) (v : Nat) :
    ∃ i, instrOf op v v = some i ∧ opcodeOf i = BitVec.ofNat 4 op ∧ operandOf kind i = v ∧
      (i.WellFormed p ↔ v < 2 ^ operandWidth p kind) := by
  by_cases hkind : kind = .data
  · simp only [TakesOperand, operandOf, operandWidth, if_pos hkind, List.mem_cons, List.not_mem_nil,
      or_false] at h ⊢
    rcases h with rfl | rfl | rfl | rfl <;> exact ⟨_, rfl, rfl, rfl, decide_eq_true_iff⟩
  · simp only [TakesOperand, operandOf, operandWidth, if_neg hkind, List.mem_cons, List.not_mem_nil,
      or_false] at h ⊢
    rcases h with rfl | rfl | rfl <;> exact ⟨_, rfl, rfl, rfl, decide_eq_true_iff⟩

/-! ### Numerals -/

/-- Reading digits is reading a first part and going on from its number. -/
theorem digitsOf_append (base acc : Nat) (cs ds : List Char) :
    digitsOf base acc (cs ++ ds) = (digitsOf base acc cs).bind (digitsOf base · ds) := by
  induction cs generalizing acc with
  | nil => rfl
  | cons c cs ih =>
    simp only [List.cons_append, digitsOf]
    cases digitOf base c with
    | none => rfl
    | some d => exact ih _

/-- A number's digits, each written by `hand` (as it is, or in upper case), read as the number if every single digit
reads as itself: the last digit is read after the number of those before it. -/
theorem digitsOf_toDigits {base : Nat} {hand : Char → Char} (hb : 1 < base)
    (hdigit : ∀ d < base, digitOf base (hand d.digitChar) = some d) (n : Nat) :
    digitsOf base 0 ((base.toDigits n).map hand) = some n := by
  induction n using Nat.strongRecOn with
  | ind n ih =>
    by_cases hn : n < base
    · simp [Nat.toDigits_of_lt_base hn, digitsOf, hdigit n hn]
    · have hle : base ≤ n := Nat.le_of_not_lt hn
      have hfront := ih (n / base) (Nat.div_lt_self (by omega) hb)
      have hlast := hdigit (n % base) (Nat.mod_lt _ (by omega))
      rw [Nat.toDigits_of_base_le hb hle, List.map_append, digitsOf_append, hfront]
      simp [digitsOf, hlast, Nat.div_add_mod']

/-- What reads as decimal digits is a decimal operand: no decimal digit is an `x`. -/
theorem numberOperand_of_decimal {cs : List Char} {n : Nat} (hne : cs ≠ []) (h : digitsOf 10 0 cs = some n) :
    numberOperand cs = some n := by
  unfold numberOperand
  split
  · exact absurd rfl hne
  · simp [digitsOf, digitOf] at h
  · simp [digitsOf, digitOf] at h
  · exact h

/-- What follows `0x` is read as hexadecimal digits. -/
theorem numberOperand_of_hexadecimal {ds : List Char} (hne : ds ≠ []) :
    numberOperand ('0' :: 'x' :: ds) = digitsOf 16 0 ds := by
  cases ds with
  | nil => exact absurd rfl hne
  | cons d ds => rfl

end Sys2Proof.Machine

/-! SUPPORT. The output ports, and what a turn of the host does when the engine is ready and when a response waits
(30_encoding.md R66 to R69). -/

namespace Sys2Proof.Machine

variable {s : State} {turn : PortInputs}

theorem cmdReady_iff : cmdReady s turn = true ↔ turn.rst = false ∧ s.rsp = none := by
  simp [cmdReady]

theorem rspValid_iff : rspValid s turn = true ↔ turn.rst = false ∧ s.rsp ≠ none := by
  simp [rspValid, Option.isSome_iff_ne_none]

theorem rspWord_of_waiting {r : Response} (hr : s.rsp = some r) (hrst : turn.rst = false) :
    rspWord s turn = some (responseWord s.params r) := by
  simp [rspWord, rspValid, hr, hrst]

theorem cmdReady_of_waiting {r : Response} (hr : s.rsp = some r) (turn : PortInputs) : cmdReady s turn = false := by
  simp [cmdReady, hr]

theorem step_of_turn {rest : List PortInputs} (hp : s.params.Legal) (hi : s.inputs = turn :: rest) :
    step s = hostTurn turn (s.withTurns rest) := by
  have hstep := step_withTurns_cons hp turn rest
  rw [← hi] at hstep
  exact hstep

/-- A turn that offers a word to an engine that is ready (R67). -/
theorem hostTurn_of_ready {w : Nat} (h : cmdReady s turn = true) (hw : turn.cmd = some w) :
    hostTurn turn s = acceptWord w s := by
  obtain ⟨hrst, hr⟩ := cmdReady_iff.mp h
  simp [hostTurn, rspValid, hrst, hr, hw]

/-- A turn while a response waits (R68). -/
theorem hostTurn_of_waiting (h : rspValid s turn = true) :
    hostTurn turn s = .next (if turn.rspReady then s.taken else s) := by
  obtain ⟨hrst, -⟩ := rspValid_iff.mp h
  simp [hostTurn, hrst, h]

/-- A word that an engine takes is run as a command or rejected, and reaches a next state either way (R67). -/
theorem acceptWord_reaches (h : s.Inv) (w : Nat) : ∃ t, acceptWord w s = .next t := by
  rcases acceptWord_cases (w := w) (s := s) with ⟨i, -, he⟩ | ⟨-, he⟩
  · obtain ⟨t, ht, -⟩ := exec_reaches_inv h i
    exact ⟨t, he.trans ht⟩
  · obtain ⟨t, ht, -⟩ := unlessFaulted_reaches (P := fun _ => True) (s := s) trivial (ruleReaches_ok trivial)
    exact ⟨t, he.trans ht⟩

end Sys2Proof.Machine

/-! The encoding of the engine (30_encoding.md): command words, response words, the assembler, and the handshake of
the ports. -/

namespace Sys2Proof.Machine

/-! ### Command words -/

/-- Settles O1: the fields of the encoder's word are the command's opcode and operands. -/
theorem decodeEncodeRoundTrip : Obligations.DecodeEncodeRoundTrip := fun _ _ => decode_encode

/-- Settles O3: the two tests of the decoder. -/
theorem decoderRejectsExactlyRsvOrOpF : Obligations.DecoderRejectsExactlyRsvOrOpF := fun _ _ => decode_error_iff

/-- Settles O4: the two words decode to the same. -/
theorem unusedFieldsAreIgnored : Obligations.UnusedFieldsAreIgnored := by
  intro s v v' hop hrsv hidx hdata
  simp only [acceptWord, portWord_toNat, decode_congr hop hrsv hidx hdata]

/-- Settles O5: the operands are the fields of the word, as wide as it has them. -/
theorem decodedCommandsFitTheirFields : Obligations.DecodedCommandsFitTheirFields := fun _ _ _ => decode_wellFormed

/-- Settles O6: the ten words, one by one. -/
theorem writtenOutWordsDecode : Obligations.WrittenOutWordsDecode :=
  ⟨rfl, rfl, rfl, rfl, rfl, rfl, rfl, rfl, rfl, rfl⟩

/-! ### Response words -/

/-- Settles O7: a response word is packed as a command word is, ST in the place of OP. -/
theorem responseWordLayout : Obligations.ResponseWordLayout := by
  refine ⟨⟨rfl, rfl, rfl, rfl, rfl, fun st => by cases st <;> decide⟩, fun p r hfits => ?_⟩
  obtain ⟨hrval, hrdata⟩ : r.rval < 2 ^ p.idxW ∧ r.rdata < 2 ^ p.w := by simpa [responseFits] using hfits
  refine ⟨opField_packWord .., rsvField_packWord .., ?rval, ?rdata⟩
  case rval =>
    have hfield : idxField p (responseWord p r) = BitVec.ofNat p.idxW r.rval := idxField_packWord ..
    exact (congrArg BitVec.toNat hfield).trans (Nat.mod_eq_of_lt hrval)
  case rdata =>
    have hfield : dataField p (responseWord p r) = BitVec.ofNat p.w r.rdata := dataField_packWord ..
    exact (congrArg BitVec.toNat hfield).trans (Nat.mod_eq_of_lt hrdata)

/-! ### The assembler -/

/-- Settles O8: the assembler's last step tests whether the command fits, which is whether its operand does. -/
theorem assembledOperandsFit : Obligations.AssembledOperandsFit := by
  intro p line
  refine ⟨fun i h => ?_, fun name operand op kind v hwords hname hkind hv => ?_⟩
  · obtain ⟨op, v, hc⟩ := assembleLine_ok h
    exact (assembleCommand_ok.mp hc).2
  · have hline := assembleLine_of_operand (p := p) hwords hname hkind hv
    obtain ⟨i, hi, hop, hoperand, hfits⟩ := instrOf_operand (takesOperand_of_lookup hname hkind) p v
    refine ⟨fun hlt => ⟨i, ?_, hop, hoperand⟩, fun hle => ?_⟩
    · rw [hline, assembleCommand_ok.mpr ⟨hi, hfits.mpr hlt⟩]
      rfl
    · rw [hline, assembleCommand_of_not_wellFormed hi fun hw => hle.not_gt (hfits.mp hw)]
      rfl

/-- Settles O9: the sixteen lines are assembled. -/
theorem encodingExamplesOfTheSpec : Obligations.EncodingExamplesOfTheSpec := rfl

/-- Settles O54: each digit reads as its number, in decimal and in hexadecimal of either case. -/
theorem numeralsReadAsTheirNumber : Obligations.NumeralsReadAsTheirNumber := by
  intro n
  have decimal : ∀ d < 10, digitOf 10 (id d.digitChar) = some d := by decide
  have upper : ∀ d < 16, digitOf 16 d.digitChar.toUpper = some d := by decide
  have lower : ∀ d < 16, digitOf 16 (id d.digitChar) = some d := by decide
  refine ⟨numberOperand_of_decimal Nat.toDigits_ne_nil ?_,
    (numberOperand_of_hexadecimal (by simp [Nat.toDigits_ne_nil])).trans (digitsOf_toDigits (by decide) upper n),
    (numberOperand_of_hexadecimal Nat.toDigits_ne_nil).trans ?_⟩
  · simpa using digitsOf_toDigits (by decide) decimal n
  · simpa using digitsOf_toDigits (by decide) lower n

/-! ### The handshake -/

/-- Settles O10: a ready engine takes the word that its next turn offers. -/
theorem stepRunsTheDecodedCommand : Obligations.StepRunsTheDecodedCommand := by
  intro s turn rest w hp hi hready hw
  have hstep : step s = acceptWord w (s.withTurns rest) := (step_of_turn hp hi).trans (hostTurn_of_ready hready hw)
  refine ⟨hstep, fun i hd => hstep.trans ?_⟩
  simp only [acceptWord, hd]

/-- Settles O14: a turn while a response waits does nothing but take it. -/
theorem responseBlocksUntilTaken : Obligations.ResponseBlocksUntilTaken := by
  intro s turn rest hp hi hvalid
  obtain ⟨r, hr⟩ := Option.ne_none_iff_exists'.mp (rspValid_iff.mp hvalid).2
  refine ⟨cmdReady_of_waiting hr turn, _, (step_of_turn hp hi).trans (hostTurn_of_waiting hvalid), ?_⟩
  cases turn.rspReady <;> exact ⟨rfl, ⟨rfl, rfl, rfl, rfl, fun _ => rfl⟩, ⟨rfl, rfl⟩, ⟨rfl, rfl⟩, rfl, rfl⟩

/-- Settles O21: the step reaches a next state, every next state of a word answers, and that response is what the
ports show. -/
theorem everyAcceptedWordIsAnswered : Obligations.EveryAcceptedWordIsAnswered := by
  intro s turn rest w hs hi hready hw
  obtain ⟨t, ht⟩ := acceptWord_reaches (s := s.withTurns rest) hs w
  obtain ⟨⟨-, hinputs⟩, r, hr⟩ := acceptWord_answers ht
  have hstep : step s = .next t := (stepRunsTheDecodedCommand s turn rest w hs.1 hi hready hw).1.trans ht
  refine ⟨t, r, hstep, hr, hinputs, fun next hrst => ⟨?_, rspWord_of_waiting hr hrst⟩, cmdReady_of_waiting hr⟩
  exact rspValid_iff.mpr ⟨hrst, by simp [hr]⟩

/-- Settles O52: each port by its lemma; `fault_o` is the fault bit by definition. -/
theorem portsFollowTheState : Obligations.PortsFollowTheState := fun s turn =>
  ⟨cmdReady_iff, rspValid_iff, fun _ => rspWord_of_waiting, fun h => by simp [rspWord, h], rfl,
    Option.isSome_iff_exists⟩

end Sys2Proof.Machine

/-! SUPPORT. The fields a command is encoded with, and what a command rule that comes to a response or to a fault
is in an engine that is not FAULTED (30_encoding.md R75, R80; 60_exceptions.md R166). -/

namespace Sys2Proof.Machine

variable {s : State} {r : Except Fault State}

/-- Every command is encoded with its opcode and its operands. -/
theorem encodedWith_fields (i : Instr) : EncodedWith i (opcodeOf i) (idxOf i) (dataOf i) := fun _ => rfl

/-- A rule that comes to a response, and to nothing else, changes nothing else. -/
theorem onlyAnswers_of_rule {st : Status} {rv rd : Nat} (hf : s.fault = false) (hr : r = .ok (respond s st rv rd)) :
    OnlyAnswers (unlessFaulted s r) s st rv rd :=
  ⟨respond s st rv rd, ⟨by rw [unlessFaulted_of_running hf, hr, finish_ok], rfl⟩,
    ⟨rfl, rfl, rfl, rfl, fun _ => rfl⟩, ⟨rfl, rfl⟩, ⟨rfl, rfl⟩, rfl, rfl⟩

/-- A rule that comes to `raise Fault(c)` takes the fault with the code of its cause. -/
theorem takesFault_of_rule {c : Cause} (hf : s.fault = false) (hr : r = .ok (raiseFault s c)) :
    TakesFault (unlessFaulted s r) s c (causeCode c).toNat :=
  ⟨raiseFault s c, ⟨by rw [unlessFaulted_of_running hf, hr, finish_ok], rfl⟩, rfl, rfl, rfl,
    ⟨rfl, rfl, rfl, rfl, fun _ => rfl⟩, ⟨rfl, rfl⟩, rfl, rfl⟩

/-- A rule that raises a fault under the condition `c` and otherwise answers the element of slot `k`: the answer. -/
theorem onlyAnswers_of_elementRule {c : Prop} [Decidable c] {cause : Cause} {rv k : Nat} (hf : s.fault = false)
    (hc : ¬ c) (hk : k < s.capacity) :
    OnlyAnswers (unlessFaulted s (if c then .ok (raiseFault s cause) else answerElement s rv k)) s .ok rv
      (readSlot s k) :=
  onlyAnswers_of_rule hf ((if_neg hc).trans (answerElement_eq hk rv))

/-- A buffer with a live element has a slot. -/
theorem capacity_pos_of_live (h : s.Inv) {p : Nat} (hp : p < s.count) : 0 < s.capacity := by
  obtain ⟨-, -, -, hcount, -⟩ := h
  exact (Nat.zero_le p).trans_lt (hp.trans_le hcount)

/-- The front of a buffer that has a slot is a slot (10_state.md R27). -/
theorem frontIndex_lt (h : s.Inv) (hc : 0 < s.capacity) : s.frontIndex < s.capacity := by
  obtain ⟨-, -, -, -, hfront, -⟩ := h
  exact hfront.1 hc

end Sys2Proof.Machine

/-! Size and element access (40_access.md): SIZE, FRONT, BACK and AT. -/

namespace Sys2Proof.Machine

/-- Settles O31: the rule of SIZE is its response. -/
theorem sizeAnswersCount : Obligations.SizeAnswersCount :=
  ⟨encodedWith_fields .size, fun _ hf => onlyAnswers_of_rule hf rfl⟩

/-- Settles O32: the empty test first; else the slot read is front_index, which is Slot(0), the slot of position 0. -/
theorem frontAnswersFirstElement : Obligations.FrontAnswersFirstElement := by
  refine ⟨encodedWith_fields .front, fun s hs hf => ⟨fun hempty => ?_, fun hlive => ?_⟩⟩
  · exact takesFault_of_rule hf (if_pos hempty)
  · have hfront := frontIndex_lt hs (capacity_pos_of_live hs hlive)
    refine ⟨onlyAnswers_of_elementRule hf hlive.ne' hfront, ?_⟩
    rw [getElem?_contents s 0 hlive, slot_zero hfront]

/-- Settles O33: the empty test first; else the slot read is that of the last live position. -/
theorem backAnswersLastElement : Obligations.BackAnswersLastElement := by
  refine ⟨encodedWith_fields .back, fun s hs hf => ⟨fun hempty => ?_, fun hlive => ?_⟩⟩
  · exact takesFault_of_rule hf (if_pos hempty)
  · exact ⟨onlyAnswers_of_elementRule hf hlive.ne' (slot_lt (capacity_pos_of_live hs hlive)),
      getElem?_contents s _ (Nat.sub_one_lt_of_lt hlive)⟩

/-- Settles O34: the range test first; else the position is live and the slot read is its slot. -/
theorem atAnswersIndexedElement : Obligations.AtAnswersIndexedElement := by
  refine ⟨fun i => encodedWith_fields (.atIndex i), fun s i hs hf => ⟨fun hout => ?_, fun hlive => ?_⟩⟩
  · exact takesFault_of_rule hf (if_pos hout)
  · exact ⟨onlyAnswers_of_elementRule hf hlive.not_ge (slot_lt (capacity_pos_of_live hs hlive)),
      getElem?_contents s i hlive⟩

end Sys2Proof.Machine

/-! SUPPORT. Slots that differ, the slot that a write changes, and the contents of a buffer that differs from
another by one element at an end (10_state.md R25; 20_memory.md R47, R54). -/

namespace Sys2Proof.Machine

variable {s t : State}

/-- Positions less than one round apart are different slots. -/
theorem slot_ne_of_lt {p q : Nat} (hpq : p < q) (hround : q < p + s.capacity) : slot s p ≠ slot s q := by
  intro h
  have hmod : p ≡ q [MOD s.capacity] := Nat.ModEq.add_left_cancel' s.frontIndex h
  have hle : s.capacity ≤ q - p := Nat.le_of_dvd (by omega) ((Nat.modEq_iff_dvd' hpq.le).mp hmod)
  omega

/-! ### A write of one slot -/

section
variable {k v : Nat} (hp : t.params = s.params)
  (hm : t.storage = memoryWrite s.params.defaultValue s.storage k v)
include hp hm

theorem readSlot_of_write_self (hs : s.Inv) : readSlot t k = v := by
  obtain ⟨-, -, ⟨hrising, -⟩, -⟩ := hs
  rw [readSlot, hp, hm, memoryRead_memoryWrite_self hrising]

theorem readSlot_of_write_ne {a : Nat} (ha : a ≠ k) : readSlot t a = readSlot s a := by
  rw [readSlot, hp, hm, memoryRead_memoryWrite_of_ne ha, readSlot]

end

/-! ### One element more at an end -/

/-- A buffer whose positions after the first hold the first `n` elements of `s`. -/
theorem contents_eq_cons {n : Nat} (ht : t.count = n + 1) (hn : n ≤ s.count)
    (h : ∀ p < n, readSlot t (slot t (p + 1)) = readSlot s (slot s p)) :
    contents t = readSlot t (slot t 0) :: (contents s).take n := by
  have hrest : (List.range n).map (fun p => readSlot t (slot t (p + 1))) = (contents s).take n := by
    rw [contents, ← List.map_take, List.take_range, Nat.min_eq_left hn]
    exact List.map_congr_left fun p hp => h p (List.mem_range.mp hp)
  rw [← hrest, contents, ht, List.range_succ_eq_map, List.map_cons, List.map_map]
  rfl

/-- A buffer whose positions before the last hold the elements of `s` from position `k` on. -/
theorem contents_eq_append {n k : Nat} (ht : t.count = n + 1) (hs : s.count = n + k)
    (h : ∀ p < n, readSlot t (slot t p) = readSlot s (slot s (p + k))) :
    contents t = (contents s).drop k ++ [readSlot t (slot t n)] := by
  have hrest : (List.range n).map (fun p => readSlot t (slot t p)) = (contents s).drop k := by
    refine List.ext_getElem (by simp [hs]) fun p hp _ => ?_
    simpa [contents, Nat.add_comm k] using h p (by simpa using hp)
  rw [← hrest, contents, ht, List.range_succ, List.map_append, List.map_singleton]

end Sys2Proof.Machine

/-! SUPPORT. The state that an insertion leaves in an engine with a slot: the slot written, the slots kept, and the
contents (41_insertion.md R110, R111, R114). -/

namespace Sys2Proof.Machine

variable {s : State} {v : Nat}

theorem exec_frontInsertion {i : Instr} (hi : i = .pushFront v ∨ i = .emplaceFront v) :
    exec i s = unlessFaulted s (insertFront v s) := by
  rcases hi with rfl | rfl <;> rfl

theorem exec_backInsertion {i : Instr} (hi : i = .pushBack v ∨ i = .emplaceBack v) :
    exec i s = unlessFaulted s (insertBack v s) := by
  rcases hi with rfl | rfl <;> rfl

/-- The count after an insertion. -/
abbrev insertedCount (s : State) : Nat := if s.count < s.capacity then s.count + 1 else s.count

theorem insertedCount_pos (hc : 0 < s.capacity) : 0 < insertedCount s := by
  simp only [insertedCount]
  split_ifs <;> omega

theorem emptyFlag_of_pos (h : 0 < s.count) : emptyFlag s = false := beq_false_of_ne h.ne'

/-! ### Before the front -/

/-- The state after an insertion before the front, in an engine with a slot. -/
def frontInserted (v : Nat) (s : State) : State :=
  respond (invalidate { s with
    frontIndex := moduloDec s.capacity s.frontIndex,
    storage := memoryWrite s.params.defaultValue s.storage (moduloDec s.capacity s.frontIndex) v,
    count := insertedCount s }) .ok (insertedCount s) 0

theorem insertFront_eq_frontInserted (hs : s.Inv) (hc : 0 < s.capacity) :
    insertFront v s = .ok (frontInserted v s) := insertFront_eq hc (moduloDec_lt (frontIndex_lt hs hc))

theorem readSlot_frontInserted_self (hs : s.Inv) :
    readSlot (frontInserted v s) (moduloDec s.capacity s.frontIndex) = v := readSlot_of_write_self (s := s) rfl rfl hs

theorem readSlot_frontInserted_ne {a : Nat} (ha : a ≠ moduloDec s.capacity s.frontIndex) :
    readSlot (frontInserted v s) a = readSlot s a :=
  readSlot_of_write_ne (s := s) (t := frontInserted v s) (v := v) rfl rfl ha

theorem slot_frontInserted_zero (hs : s.Inv) (hc : 0 < s.capacity) :
    slot (frontInserted v s) 0 = moduloDec s.capacity s.frontIndex :=
  slot_zero (s := frontInserted v s) (moduloDec_lt (frontIndex_lt hs hc))

/-- The new element leads the first `n` old ones, if these and it are as many as the count says. -/
theorem contents_frontInserted_of_count (hs : s.Inv) (hc : 0 < s.capacity) {n : Nat} (hn : n ≤ s.count)
    (hcap : n < s.capacity) (hcount : insertedCount s = n + 1) :
    contents (frontInserted v s) = v :: (contents s).take n := by
  have hfirst : readSlot (frontInserted v s) (slot (frontInserted v s) 0) = v := by
    rw [slot_frontInserted_zero hs hc, readSlot_frontInserted_self hs]
  have hrest : ∀ p < n,
      readSlot (frontInserted v s) (slot (frontInserted v s) (p + 1)) = readSlot s (slot s p) := by
    intro p hp
    have hne := slot_ne_of_lt (s := frontInserted v s) p.succ_pos
      (show p + 1 < 0 + s.capacity by omega)
    rw [slot_frontInserted_zero hs hc] at hne
    rw [readSlot_frontInserted_ne hne.symm]
    exact congrArg _ (slot_of_moduloDec_front (frontIndex_lt hs hc) p)
  rw [contents_eq_cons hcount hn hrest, hfirst]

theorem contents_frontInserted (hs : s.Inv) (hc : 0 < s.capacity) :
    contents (frontInserted v s) = v :: (if s.count < s.capacity then contents s else (contents s).dropLast) := by
  have ⟨_, _, _, hbound, _⟩ := hs
  by_cases hroom : s.count < s.capacity
  · rw [if_pos hroom, contents_frontInserted_of_count hs hc le_rfl hroom (if_pos hroom),
      List.take_of_length_le (length_contents s).le]
  · have hcount : insertedCount s = s.count - 1 + 1 := (if_neg hroom).trans (by omega)
    rw [if_neg hroom, contents_frontInserted_of_count hs hc (Nat.sub_le _ _) (by omega) hcount,
      List.dropLast_eq_take, length_contents]

/-! ### After the back -/

/-- The state after an insertion after the back, in an engine with a slot. -/
def backInserted (v : Nat) (s : State) : State :=
  respond (invalidate { s with
    storage := memoryWrite s.params.defaultValue s.storage (slot s s.count) v,
    frontIndex := if s.count < s.capacity then s.frontIndex else moduloInc s.capacity s.frontIndex,
    count := insertedCount s }) .ok (insertedCount s) 0

theorem insertBack_eq_backInserted (hc : 0 < s.capacity) : insertBack v s = .ok (backInserted v s) :=
  insertBack_eq hc

theorem readSlot_backInserted_self (hs : s.Inv) : readSlot (backInserted v s) (slot s s.count) = v :=
  readSlot_of_write_self (s := s) rfl rfl hs

theorem readSlot_backInserted_ne {a : Nat} (ha : a ≠ slot s s.count) :
    readSlot (backInserted v s) a = readSlot s a :=
  readSlot_of_write_ne (s := s) (t := backInserted v s) (v := v) rfl rfl ha

/-- Below capacity every position keeps its slot. -/
theorem slot_backInserted_of_room (hroom : s.count < s.capacity) (p : Nat) :
    slot (backInserted v s) p = slot s p := by
  simp only [slot, backInserted, respond_frontIndex, invalidate_frontIndex, if_pos hroom, respond_capacity,
    invalidate_capacity]

/-- At capacity every position takes over the slot of the next one. -/
theorem slot_backInserted_of_full (hfull : ¬ s.count < s.capacity) (p : Nat) :
    slot (backInserted v s) p = slot s (p + 1) := by
  simp only [slot, backInserted, respond_frontIndex, invalidate_frontIndex, if_neg hfull, respond_capacity,
    invalidate_capacity]
  exact slot_of_moduloInc_front s p

/-- The new element ends the old ones from position `k` on, if the window has moved on by `k`. -/
theorem contents_backInserted_of_shift (hs : s.Inv) {n k : Nat} (hcount : s.count = n + k) (hcap : n < s.capacity)
    (hnew : insertedCount s = n + 1) (hslot : ∀ p, slot (backInserted v s) p = slot s (p + k)) :
    contents (backInserted v s) = (contents s).drop k ++ [v] := by
  have hlast : readSlot (backInserted v s) (slot (backInserted v s) n) = v := by
    rw [hslot, ← hcount, readSlot_backInserted_self hs]
  have hrest : ∀ p < n,
      readSlot (backInserted v s) (slot (backInserted v s) p) = readSlot s (slot s (p + k)) := by
    intro p hp
    have hne : slot s (p + k) ≠ slot s s.count := slot_ne_of_lt (by omega) (by omega)
    rw [hslot, readSlot_backInserted_ne hne]
  rw [contents_eq_append hnew hcount hrest, hlast]

theorem contents_backInserted (hs : s.Inv) (hc : 0 < s.capacity) :
    contents (backInserted v s) = (if s.count < s.capacity then contents s else (contents s).tail) ++ [v] := by
  have ⟨_, _, _, hbound, _⟩ := hs
  by_cases hroom : s.count < s.capacity
  · rw [if_pos hroom, contents_backInserted_of_shift hs (k := 0) rfl hroom (if_pos hroom)
      (slot_backInserted_of_room hroom), List.drop_zero]
  · have hcount : s.count = s.count - 1 + 1 := by omega
    rw [if_neg hroom, contents_backInserted_of_shift hs hcount (by omega)
      ((if_neg hroom).trans hcount) (slot_backInserted_of_full hroom), List.drop_one]

end Sys2Proof.Machine

/-! Insertion (41_insertion.md): PUSH_FRONT, PUSH_BACK and the emplace commands. -/

namespace Sys2Proof.Machine

/-- Settles O35: the capacity-0 test first; else the state is `frontInserted`, which its lemmas describe. -/
theorem frontInsertionWritesOneSlot : Obligations.FrontInsertionWritesOneSlot := by
  refine ⟨fun v => ⟨encodedWith_fields (.pushFront v), encodedWith_fields (.emplaceFront v)⟩,
    fun s v i hs hf hi => ?_⟩
  rw [exec_frontInsertion hi]
  refine ⟨fun hzero => answersNoop_of_rule hf (if_pos hzero), fun hc => ⟨frontInserted v s, ⟨?_, rfl⟩, rfl, rfl, rfl,
    readSlot_frontInserted_self hs, fun _ => readSlot_frontInserted_ne, contents_frontInserted hs hc,
    emptyFlag_of_pos (insertedCount_pos hc), rfl, rfl, ⟨rfl, rfl⟩, rfl, rfl⟩⟩
  rw [unlessFaulted_of_running hf, insertFront_eq_frontInserted hs hc, finish_ok]

/-- Settles O36: the capacity-0 test first; else the state is `backInserted`, which its lemmas describe. -/
theorem backInsertionWritesOneSlot : Obligations.BackInsertionWritesOneSlot := by
  refine ⟨fun v => ⟨encodedWith_fields (.pushBack v), encodedWith_fields (.emplaceBack v)⟩,
    fun s v i hs hf hi => ?_⟩
  rw [exec_backInsertion hi]
  refine ⟨fun hzero => answersNoop_of_rule hf (if_pos hzero), fun hc => ⟨backInserted v s, ⟨?_, rfl⟩,
    fun hroom => ⟨if_pos hroom, if_pos hroom⟩, fun hfull => ⟨if_neg hfull.not_lt, if_neg hfull.not_lt⟩, rfl,
    readSlot_backInserted_self hs, fun _ => readSlot_backInserted_ne, contents_backInserted hs hc,
    emptyFlag_of_pos (insertedCount_pos hc), rfl, rfl, ⟨rfl, rfl⟩, rfl, rfl⟩⟩
  rw [unlessFaulted_of_running hf, insertBack_eq_backInserted hc, finish_ok]

/-- Settles O37: the contents and the count of O35 and O36, below capacity and at capacity. -/
theorem overwriteLaw : Obligations.OverwriteLaw := by
  intro s v hs hf hc
  obtain ⟨tb, ⟨hback, -⟩, hbroom, hbfull, -, -, -, hbseq, -⟩ :=
    (backInsertionWritesOneSlot.2 s v _ hs hf (.inl rfl)).2 hc
  obtain ⟨tf, ⟨hfront, -⟩, -, hfcount, -, -, -, hfseq, -⟩ :=
    (frontInsertionWritesOneSlot.2 s v _ hs hf (.inl rfl)).2 hc
  refine ⟨fun hroom => ?_, fun hfull => ?_⟩
  · rw [if_pos hroom] at hbseq hfseq hfcount
    exact ⟨⟨tb, hback, hbseq, (hbroom hroom).1⟩, tf, hfront, hfseq, hfcount⟩
  · rw [if_neg hfull.not_lt] at hbseq hfseq hfcount
    exact ⟨⟨tb, hback, hbseq, (hbfull hfull).1.trans hfull⟩, tf, hfront, hfseq, hfcount.trans hfull⟩

/-- Settles O38: an emplace and the push at the same end are one command rule. -/
theorem emplaceIsPush : Obligations.EmplaceIsPush := fun _ _ =>
  ⟨(exec_frontInsertion (.inr rfl)).trans (exec_frontInsertion (.inl rfl)).symm,
    (exec_backInsertion (.inr rfl)).trans (exec_backInsertion (.inl rfl)).symm⟩

end Sys2Proof.Machine

/-! SUPPORT. The state that a removal leaves: the rule that the two pops share, the flag, and the contents
(42_removal.md R120, R121). -/

namespace Sys2Proof.Machine

variable {s : State}

/-- The rule of a pop on a buffer with a live element: neither test holds, and the element is read. -/
theorem removalRule_of_live {u : State} {k : Nat} {f : Nat → State} (hs : s.Inv) (hf : s.fault = false)
    (hlive : 0 < s.count) (hk : k < u.capacity) :
    unlessFaulted s
      (if s.capacity = 0 then .ok (noop s)
       else if s.count = 0 then .ok (raiseFault s .emptyAccess)
       else memRead u k >>= fun v => pure (f v)) = .next (f (readSlot u k)) := by
  rw [unlessFaulted_of_running hf, if_neg (capacity_pos_of_live hs hlive).ne', if_neg hlive.ne',
    memRead_then_ok.mpr ⟨hk, rfl⟩, finish_ok]

/-- The state after a removal of the element `x` that leaves the front at slot `front`. -/
def removed (front x : Nat) (s : State) : State :=
  respond (invalidate { s with frontIndex := front, count := s.count - 1 }) .ok (s.count - 1) x

theorem exec_popFront_of_live (hs : s.Inv) (hf : s.fault = false) (hlive : 0 < s.count) :
    exec .popFront s = .next (removed (moduloInc s.capacity s.frontIndex) (readSlot s s.frontIndex) s) :=
  removalRule_of_live hs hf hlive (frontIndex_lt hs (capacity_pos_of_live hs hlive))

theorem exec_popBack_of_live (hs : s.Inv) (hf : s.fault = false) (hlive : 0 < s.count) :
    exec .popBack s = .next (removed s.frontIndex (readSlot s (slot s (s.count - 1))) s) :=
  removalRule_of_live hs hf hlive (slot_lt (s := s) (capacity_pos_of_live hs hlive))

/-- A buffer that has lost an element is not full. -/
theorem fullFlag_removed (hs : s.Inv) (hlive : 0 < s.count) (front x : Nat) :
    fullFlag (removed front x s) = false := by
  obtain ⟨-, -, -, hcount, -⟩ := hs
  exact beq_false_of_ne ((Nat.sub_one_lt hlive.ne').trans_le hcount).ne

/-- A buffer whose positions after the first hold all the elements of `t`. -/
theorem contents_eq_cons_contents {t : State} (hcount : s.count = t.count + 1)
    (h : ∀ p < t.count, readSlot s (slot s (p + 1)) = readSlot t (slot t p)) :
    contents s = readSlot s (slot s 0) :: contents t := by
  rw [contents_eq_cons hcount le_rfl h, List.take_of_length_le (length_contents t).le]

/-- From a front one further on, the positions left hold the elements after the first. -/
theorem contents_eq_cons_removed (hs : s.Inv) (hlive : 0 < s.count) (x : Nat) :
    contents s = readSlot s s.frontIndex :: contents (removed (moduloInc s.capacity s.frontIndex) x s) := by
  have hseq := contents_eq_cons_contents (t := removed (moduloInc s.capacity s.frontIndex) x s)
    (Nat.sub_add_cancel hlive).symm fun p _ => congrArg (readSlot s) (slot_of_moduloInc_front s p).symm
  rwa [slot_zero (frontIndex_lt hs (capacity_pos_of_live hs hlive))] at hseq

/-- From the same front, the positions left hold the elements before the last. -/
theorem contents_eq_removed_append (hlive : 0 < s.count) (x : Nat) :
    contents s = contents (removed s.frontIndex x s) ++ [readSlot s (slot s (s.count - 1))] :=
  contents_eq_append (s := removed s.frontIndex x s) (k := 0) (Nat.sub_add_cancel hlive).symm rfl fun _ _ => rfl

end Sys2Proof.Machine

/-! Removal (42_removal.md): POP_FRONT and POP_BACK. -/

namespace Sys2Proof.Machine

/-- Settles O39: the capacity-0 test first, then the empty test; else the first position gives way to the next. -/
theorem popFrontRemovesFirstElement : Obligations.PopFrontRemovesFirstElement := by
  refine ⟨encodedWith_fields .popFront, fun s hs hf => ⟨fun hzero => ?_, fun hc hempty => ?_, fun hlive => ?_⟩⟩
  · exact answersNoop_of_rule hf (if_pos hzero)
  · exact takesFault_of_rule hf ((if_neg hc.ne').trans (if_pos hempty))
  · exact ⟨_, ⟨exec_popFront_of_live hs hf hlive, rfl⟩, rfl, rfl, rfl, rfl, fun _ => rfl,
      contents_eq_cons_removed hs hlive _, fullFlag_removed hs hlive _ _, rfl, rfl, ⟨rfl, rfl⟩, rfl, rfl⟩

/-- Settles O40: the capacity-0 test first, then the empty test; else the last position is given up. -/
theorem popBackRemovesLastElement : Obligations.PopBackRemovesLastElement := by
  refine ⟨encodedWith_fields .popBack, fun s hs hf => ⟨fun hzero => ?_, fun hc hempty => ?_, fun hlive => ?_⟩⟩
  · exact answersNoop_of_rule hf (if_pos hzero)
  · exact takesFault_of_rule hf ((if_neg hc.ne').trans (if_pos hempty))
  · exact ⟨_, ⟨exec_popBack_of_live hs hf hlive, rfl⟩, rfl, rfl, rfl, rfl, fun _ => rfl,
      contents_eq_removed_append hlive _, fullFlag_removed hs hlive _ _, rfl, rfl, ⟨rfl, rfl⟩, rfl, rfl⟩

end Sys2Proof.Machine

/-! SUPPORT. A buffer whose count is 0: its contents and its flags (10_state.md R25, R34). -/

namespace Sys2Proof.Machine

variable {s : State}

theorem contents_of_count_zero (h : s.count = 0) : contents s = [] :=
  List.eq_nil_of_length_eq_zero ((length_contents s).trans h)

theorem emptyFlag_of_count_zero (h : s.count = 0) : emptyFlag s = true := beq_iff_eq.mpr h

/-- An empty buffer is full only if it has no slot. -/
theorem fullFlag_iff_of_count_zero (h : s.count = 0) : fullFlag s = true ↔ s.capacity = 0 := by
  rw [fullFlag, beq_iff_eq, h, eq_comm]

end Sys2Proof.Machine

/-! Bulk commands (43_bulk.md): RESET and RESIZE. -/

namespace Sys2Proof.Machine

/-- Settles O41: RESET leaves count 0 and writes neither capacity nor storage. -/
theorem resetEmptiesTheBuffer : Obligations.ResetEmptiesTheBuffer :=
  ⟨encodedWith_fields .reset, fun _ hf => ⟨_, ⟨exec_reset_eq hf, rfl⟩, rfl, rfl, contents_of_count_zero rfl, rfl, rfl,
    fun _ => rfl, emptyFlag_of_count_zero rfl, fullFlag_iff_of_count_zero rfl, rfl, rfl, ⟨rfl, rfl⟩, rfl, rfl⟩⟩

/-- Settles O42: the CAP_MAX test first; else count is 0 and no slot is listed, so each reads as DEFAULT_VALUE, as
after hardware reset. -/
theorem resizeReplacesTheStorage : Obligations.ResizeReplacesTheStorage := by
  refine ⟨fun n => encodedWith_fields (.resize n), fun s n hf => ⟨fun hover => ?_, fun hn => ?_⟩⟩
  · exact takesFault_of_rule hf (congrArg Except.ok (if_pos hover))
  · exact ⟨_, ⟨exec_resize_eq hf hn, rfl⟩, rfl, fun _ ha => memRead_ok.mpr ⟨ha, rfl⟩,
      ⟨rfl, rfl, rfl, rfl, fun _ => rfl⟩, rfl, rfl, contents_of_count_zero rfl, emptyFlag_of_count_zero rfl,
      fullFlag_iff_of_count_zero rfl, rfl, rfl, ⟨rfl, rfl⟩, rfl, rfl⟩

end Sys2Proof.Machine

/-! SUPPORT. What ITER_BEGIN and ITER_NEXT come to, what a command can do to the cursor, and the states of a
traversal (44_iteration.md R140 to R143). -/

namespace Sys2Proof.Machine

variable {s t : State} {i : Instr}

/-- ITER_BEGIN (R140). -/
theorem exec_iterBegin_eq (hf : s.fault = false) :
    exec .iterBegin s = .next (respond { s with iterValid := true, iterPos := 0 } .ok s.count 0) :=
  unlessFaulted_of_running hf _

/-- ITER_NEXT before the end (R141): neither test holds, and the element at the cursor is read. -/
theorem exec_iterNext_of_live (hs : s.Inv) (hf : s.fault = false) (hvalid : s.iterValid = true)
    (hlive : s.iterPos < s.count) :
    exec .iterNext s = .next (respond { s with iterPos := s.iterPos + 1 } .ok s.iterPos
      (readSlot s (slot s s.iterPos))) := by
  have hslot : slot s s.iterPos < s.capacity := slot_lt (capacity_pos_of_live hs hlive)
  rw [exec, execIterNext, unlessFaulted_of_running hf, if_neg (by simp [hvalid]), if_neg hlive.ne,
    memRead_then_ok.mpr ⟨hslot, rfl⟩, finish_ok]

/-- ITER_NEXT at the end (R141). -/
theorem exec_iterNext_at_end (hf : s.fault = false) (hvalid : s.iterValid = true) (hend : s.iterPos = s.count) :
    exec .iterNext s = .next (respond s .endOfSeq s.count 0) := by
  rw [exec, execIterNext, unlessFaulted_of_running hf, if_neg (by simp [hvalid]), if_pos hend, finish_ok]

/-! ### What a command can do to the cursor (R142) -/

/-- What the command `i` may do from `s` to `t` to the cursor: leave it, as a mutating command only with a fault;
invalidate it, as an unfaulted mutating command; set it, as ITER_BEGIN; or move it, as ITER_NEXT. -/
abbrev CursorEffect (i : Instr) (s t : State) : Prop :=
  (SameCursor s t ∧ (mutating i = true → t.fault = true)) ∨
    (mutating i = true ∧ t.iterValid = false ∧ t.fault = false) ∨
    (i = .iterBegin ∧ t.fault = false) ∨
    (i = .iterNext ∧ t.iterValid = s.iterValid ∧ t.fault = false)

theorem cursorEffect_of_sameCursor (hi : mutating i = false) (h : SameCursor s t) : CursorEffect i s t :=
  .inl ⟨h, fun hm => absurd (hi.symm.trans hm) (by decide)⟩

theorem cursorEffect_raiseFault (i : Instr) (s : State) (c : Cause) : CursorEffect i s (raiseFault s c) :=
  .inl ⟨⟨rfl, rfl⟩, fun _ => rfl⟩

theorem cursorEffect_of_invalidated (hi : mutating i = true) (hv : t.iterValid = false) (hf : t.fault = false) :
    CursorEffect i s t := .inr (.inl ⟨hi, hv, hf⟩)

theorem ruleOnly_insertFront_cursorEffect (hi : mutating i = true) (hf : s.fault = false) (v : Nat) :
    RuleOnly (CursorEffect i s) (insertFront v s) := by
  intro t ht
  rcases insertFront_ok ht with ⟨-, rfl⟩ | ⟨-, -, rfl⟩ <;> exact cursorEffect_of_invalidated hi rfl hf

theorem ruleOnly_insertBack_cursorEffect (hi : mutating i = true) (hf : s.fault = false) (v : Nat) :
    RuleOnly (CursorEffect i s) (insertBack v s) := by
  intro t ht
  rcases insertBack_ok ht with ⟨-, rfl⟩ | ⟨-, rfl⟩ <;> exact cursorEffect_of_invalidated hi rfl hf

/-- All that a command of an engine that is not FAULTED can do to the cursor. -/
theorem exec_cursorEffect (hf : s.fault = false) (h : exec i s = .next t) : CursorEffect i s t := by
  have guarded : ∀ {r}, unlessFaulted s r = .next t → RuleOnly (CursorEffect i s) r → CursorEffect i s t :=
    fun h hr => hr t (finish_eq_next.mp ((unlessFaulted_of_running hf _).symm.trans h))
  have raised : ∀ c, RuleOnly (CursorEffect i s) (.ok (raiseFault s c)) :=
    fun c => ruleOnly_ok (cursorEffect_raiseFault i s c)
  cases i with
  | size => exact guarded h (ruleOnly_ok (cursorEffect_of_sameCursor rfl ⟨rfl, rfl⟩))
  | front | back | atIndex p =>
    exact guarded h (ruleOnly_ite (raised _)
      (ruleOnly_memRead fun _ => cursorEffect_of_sameCursor rfl ⟨rfl, rfl⟩))
  | pushFront v | emplaceFront v => exact guarded h (ruleOnly_insertFront_cursorEffect rfl hf v)
  | pushBack v | emplaceBack v => exact guarded h (ruleOnly_insertBack_cursorEffect rfl hf v)
  | popFront | popBack =>
    exact guarded h (ruleOnly_ite (ruleOnly_ok (cursorEffect_of_invalidated rfl rfl hf))
      (ruleOnly_ite (raised _) (ruleOnly_memRead fun _ => cursorEffect_of_invalidated rfl rfl hf)))
  | reset => exact guarded h (ruleOnly_ok (cursorEffect_of_invalidated rfl rfl hf))
  | resize n =>
    refine guarded h (ruleOnly_ok ?_)
    split_ifs
    · exact cursorEffect_raiseFault _ s _
    · exact cursorEffect_of_invalidated rfl rfl hf
  | iterBegin => exact guarded h (ruleOnly_ok (.inr (.inr (.inl ⟨rfl, hf⟩))))
  | iterNext =>
    exact guarded h (ruleOnly_ite (raised _)
      (ruleOnly_ite (ruleOnly_ok (cursorEffect_of_sameCursor rfl ⟨rfl, rfl⟩))
        (ruleOnly_memRead fun _ => .inr (.inr (.inr ⟨rfl, rfl, hf⟩)))))
  | readCsr c =>
    simp only [exec, execReadCsr] at h
    split at h
    · cases h
      exact cursorEffect_of_sameCursor rfl ⟨rfl, rfl⟩
    · exact guarded h (raised _)

/-! ### A traversal (R143) -/

/-- `s` in the middle of a traversal: the next element is that of position `p`, and no response waits. -/
def traversing (p : Nat) (s : State) : State := { s with iterValid := true, iterPos := p, rsp := none }

theorem inv_traversing (hs : s.Inv) {p : Nat} (hp : p ≤ s.count) : (traversing p s).Inv :=
  inv_taken (inv_cursor hs hp)

/-- The responses to the ITER_NEXT of a traversal of `es` whose first element has position `p`. -/
abbrev elementAnswers (p : Nat) (es : List Nat) : List Response :=
  (es.zipIdx p).map fun e => { st := .ok, rval := e.2, rdata := e.1 }

theorem drop_contents {p : Nat} (hp : p < s.count) :
    (contents s).drop p = readSlot s (slot s p) :: (contents s).drop (p + 1) := by
  obtain ⟨hlen, helem⟩ := List.getElem_of_getElem? (getElem?_contents s p hp)
  rw [List.drop_eq_getElem_cons hlen, helem]

/-- The rest of a traversal with `n` elements to come, by induction on `n`: each ITER_NEXT answers the next element
and moves on by one position, and the last one answers END. -/
theorem answers_traversing (hs : s.Inv) (hf : s.fault = false) (n p : Nat) (hn : p + n = s.count) :
    answers (List.replicate (n + 1) .iterNext) (traversing p s) =
      some (elementAnswers p ((contents s).drop p) ++ [{ st := .endOfSeq, rval := s.count, rdata := 0 }],
        traversing s.count s) := by
  induction n generalizing p with
  | zero =>
    obtain rfl : p = s.count := hn
    have hend := exec_iterNext_at_end (s := traversing s.count s) hf rfl rfl
    have hnone : (contents s).drop s.count = [] := List.drop_of_length_le (length_contents s).le
    rw [hnone]
    exact answers_cons hend rfl
  | succ n ih =>
    have hlive : p < s.count := by omega
    have hnext := exec_iterNext_of_live (s := traversing p s) (inv_traversing hs hlive.le) hf rfl hlive
    rw [List.replicate_succ, answers_cons hnext rfl, drop_contents hlive]
    exact congrArg (Option.map _) (ih (p + 1) (by omega))

end Sys2Proof.Machine

/-! Iteration (44_iteration.md): ITER_BEGIN, ITER_NEXT, cursor invalidation and the traversal law. -/

namespace Sys2Proof.Machine

/-- Settles O45: the rule of ITER_BEGIN sets the cursor and responds. -/
theorem iterBeginStartsAtTheFront : Obligations.IterBeginStartsAtTheFront :=
  ⟨encodedWith_fields .iterBegin, fun _ hf => ⟨_, ⟨exec_iterBegin_eq hf, rfl⟩, rfl, rfl,
    ⟨rfl, rfl, rfl, rfl, fun _ => rfl⟩, ⟨rfl, rfl⟩, rfl, rfl⟩⟩

/-- Settles O46: the test of the cursor first, then that of the end; else the position is live and the slot read is
its slot. -/
theorem iterNextReadsAndAdvances : Obligations.IterNextReadsAndAdvances := by
  refine ⟨encodedWith_fields .iterNext, fun s hs hf =>
    ⟨fun hinvalid => ?_, fun hvalid hend => ?_, fun hvalid hlive => ?_⟩⟩
  · exact takesFault_of_rule hf (if_pos hinvalid)
  · exact ⟨_, ⟨exec_iterNext_at_end hf hvalid hend, rfl⟩, ⟨rfl, rfl, rfl, rfl, fun _ => rfl⟩, ⟨rfl, rfl⟩,
      ⟨rfl, rfl⟩, rfl, rfl⟩
  · exact ⟨_, ⟨exec_iterNext_of_live hs hf hvalid hlive, rfl⟩, getElem?_contents s _ hlive, rfl, hvalid,
      ⟨rfl, rfl, rfl, rfl, fun _ => rfl⟩, ⟨rfl, rfl⟩, rfl, rfl⟩

/-- Settles O47: the next state exists by the invariant, and each of the four effects on the cursor says which of
the four clauses ask something of it. -/
theorem mutatingCommandsInvalidateTheCursor : Obligations.MutatingCommandsInvalidateTheCursor := by
  intro s i hs hf
  obtain ⟨t, ht, -⟩ := exec_reaches_inv hs i
  refine ⟨t, ht, ?_⟩
  rcases exec_cursorEffect hf ht with ⟨hsame, hfault⟩ | ⟨hi, hclear, hrun⟩ | ⟨rfl, hrun⟩ | ⟨rfl, hkept, hrun⟩
  case inl => exact ⟨fun hi hrun => absurd ((hfault hi).symm.trans hrun) (by decide), fun _ => hsame,
    fun _ _ => hsame.1, fun _ _ _ => hsame.2⟩
  case inr.inl => simp [hi, hclear, hrun]
  case inr.inr.inl => simp [mutating, hrun]
  case inr.inr.inr => simp [mutating, hrun, hkept]

/-- Settles O48: ITER_BEGIN starts the traversal at position 0, with all the elements to come. -/
theorem traversalLaw : Obligations.TraversalLaw := by
  intro s hs hf
  refine ⟨traversing s.count s, ?_, ⟨rfl, rfl, rfl, rfl, fun _ => rfl⟩, ⟨rfl, rfl⟩, rfl, rfl⟩
  rw [answers_cons (exec_iterBegin_eq hf) rfl]
  exact congrArg (Option.map _) (answers_traversing hs hf s.count 0 (Nat.zero_add _))

end Sys2Proof.Machine

/-! SUPPORT. STATUS as a number, and what READ_CSR of a legal and of an illegal number comes to (10_state.md R36, R41;
45_csr.md R150). -/

namespace Sys2Proof.Machine

variable {s : State} {c : Nat}

/-- An answer given at once changes nothing but the response port. -/
theorem onlyAnswers_respond (s : State) (st : Status) (rv rd : Nat) :
    OnlyAnswers (.next (respond s st rv rd)) s st rv rd :=
  ⟨_, ⟨rfl, rfl⟩, ⟨rfl, rfl, rfl, rfl, fun _ => rfl⟩, ⟨rfl, rfl⟩, ⟨rfl, rfl⟩, rfl, rfl⟩

/-- The number of two bit vectors side by side: the upper one stands above the bits of the lower one. -/
theorem toNat_append_eq_add {m n : Nat} (hi : BitVec m) (lo : BitVec n) :
    (hi ++ lo).toNat = 2 ^ n * hi.toNat + lo.toNat := by
  rw [BitVec.toNat_append, Nat.shiftLeft_eq, Nat.mul_comm, Nat.two_pow_add_eq_or_of_lt lo.isLt]

/-- STATUS as a number: each field times the value of its lowest bit. -/
theorem csrValue_status (hp : s.params.Legal) :
    csrValue s .status = s.fault.toNat + 2 * (causeCode s.cause).toNat + 32 * s.iterValid.toNat +
      64 * (decide (s.count = 0)).toNat + 128 * (decide (s.count = s.capacity)).toNat := by
  have hvalue : csrValue s .status = (statusBits s).toNat := statusValue_eq hp
  rw [hvalue]
  simp only [statusBits, emptyFlag, fullFlag, toNat_append_eq_add, BitVec.toNat_ofBool, beq_eq_decide]
  omega

/-- READ_CSR of a legal number answers at once, FAULTED or not. -/
theorem onlyAnswers_readCsr_of_legal (r : Csr) (hc : csrOf c = some r) :
    OnlyAnswers (exec (.readCsr c) s) s .ok (csrValue s r) 0 := by
  rw [exec, execReadCsr, hc]
  exact onlyAnswers_respond s _ _ _

/-- READ_CSR of an illegal number is guarded as all other commands are. -/
theorem exec_readCsr_of_illegal (hc : 5 ≤ c) (s : State) :
    exec (.readCsr c) s = unlessFaulted s (.ok (raiseFault s .illegalCsr)) := by
  obtain ⟨k, rfl⟩ := Nat.exists_eq_add_of_le' hc
  rfl

end Sys2Proof.Machine

/-! CSRs (45_csr.md): READ_CSR. -/

namespace Sys2Proof.Machine

/-- Settles O49: the five legal numbers name the five CSRs; the others meet the guard, which lets ILLEGAL_CSR be
raised unless FAULTED. -/
theorem readCsrAnswersTheCsr : Obligations.ReadCsrAnswersTheCsr := by
  refine ⟨fun c => encodedWith_fields (.readCsr c), fun s c hp =>
    ⟨fun hc => csrValue_status hp ▸ onlyAnswers_readCsr_of_legal .status (hc ▸ rfl),
      fun hc => onlyAnswers_readCsr_of_legal .capacity (hc ▸ rfl),
      fun hc => onlyAnswers_readCsr_of_legal .count (hc ▸ rfl),
      fun hc => onlyAnswers_readCsr_of_legal .front (hc ▸ rfl),
      fun hc => onlyAnswers_readCsr_of_legal .iterPos (hc ▸ rfl),
      fun hc hf => ?raised, fun hc hf => ?faulted⟩⟩
  case raised =>
    rw [exec_readCsr_of_illegal hc]
    exact takesFault_of_rule hf rfl
  case faulted =>
    rw [exec_readCsr_of_illegal hc, unlessFaulted_of_faulted hf]
    exact onlyAnswers_respond s _ _ _

end Sys2Proof.Machine

/-! SUPPORT. Illegal words, the word of a READ_CSR, idle turns, and all that a command can do to the fault state
(30_encoding.md R80; 60_exceptions.md R161, R166, R170, R171, R181). -/

namespace Sys2Proof.Machine

variable {s t u : State} {i : Instr} {r : Except Fault State} {c : Nat}

/-! ### Accepted words -/

/-- A word that is no command meets the guard of ILLEGAL_COMMAND. -/
theorem acceptWord_of_illegal {w : s.params.Word} (h : rsvField s.params w ≠ 0 ∨ opField s.params w = 0xF) :
    acceptWord w.toNat s = illegalCommand s := by
  obtain ⟨e, he⟩ := decode_error_iff.mpr h
  simp only [acceptWord, portWord_toNat, he]

/-- A word that is a command runs it. -/
theorem acceptWord_of_decode {w : s.params.Word} (h : decode s.params w = .ok i) :
    acceptWord w.toNat s = exec i s := by
  simp only [acceptWord, portWord_toNat, h]

/-- READ_CSR has the opcode 0xE, and its operand is IDX (30_encoding.md R78). -/
theorem instrOf_eq_readCsr {op : BitVec 4} {idx data : Nat} :
    instrOf op.toNat idx data = some (.readCsr c) ↔ op = 0xE ∧ idx = c := by
  rw [← BitVec.toNat_inj]
  unfold instrOf
  split <;> simp_all

theorem decode_eq_readCsr {p : Params} {w : p.Word} :
    decode p w = .ok (.readCsr c) ↔ rsvField p w = 0 ∧ opField p w = 0xE ∧ (idxField p w).toNat = c := by
  rw [decode_ok, instrOf_eq_readCsr]

/-- Every number below 5 names a CSR (10_state.md R35). -/
theorem csrOf_of_lt (hc : c < 5) : ∃ r, csrOf c = some r :=
  match c, hc with
  | 0, _ | 1, _ | 2, _ | 3, _ | 4, _ => ⟨_, rfl⟩

/-- While FAULTED every command but a READ_CSR of a legal number is stopped by the guard. -/
theorem exec_of_faulted_of_guarded (hf : s.fault = true) (hi : ∀ c < 5, i ≠ .readCsr c) :
    exec i s = .next (answerFaulted s) := by
  cases i with
  | readCsr c =>
    have hc : 5 ≤ c := Nat.le_of_not_lt fun hlt => hi c hlt rfl
    rw [exec_readCsr_of_illegal hc, unlessFaulted_of_faulted hf]
  | size | front | back | atIndex _ | pushFront _ | pushBack _ | emplaceFront _ | emplaceBack _ | popFront
  | popBack | reset | resize _ | iterBegin | iterNext => exact unlessFaulted_of_faulted hf _

/-- While FAULTED every word but that of a READ_CSR of a legal number is stopped by the guard. -/
theorem acceptWord_of_faulted_of_guarded {w : s.params.Word} (hf : s.fault = true)
    (hw : ¬ (rsvField s.params w = 0 ∧ opField s.params w = 0xE ∧ (idxField s.params w).toNat < 5)) :
    acceptWord w.toNat s = .next (answerFaulted s) := by
  rcases acceptWord_cases (w := w.toNat) (s := s) with ⟨i, hd, he⟩ | ⟨-, he⟩
  · refine he.trans (exec_of_faulted_of_guarded hf ?_)
    rintro c hc rfl
    obtain ⟨hrsv, hop, hidx⟩ := decode_eq_readCsr.mp (portWord_toNat (p := s.params) w ▸ hd)
    exact hw ⟨hrsv, hop, hidx ▸ hc⟩
  · exact he.trans (unlessFaulted_of_faulted hf _)

/-! ### Idle turns -/

/-- With no turn of the host left a step changes nothing. -/
theorem step_of_no_turn (hp : s.params.Legal) (hi : s.inputs = []) : step s = .next s := by
  rw [step, if_pos hp, hi]

/-- A turn that offers no word to an engine that is ready changes nothing. -/
theorem hostTurn_of_idle {turn : PortInputs} (h : cmdReady s turn = true) (hcmd : turn.cmd = none) :
    hostTurn turn s = .next s := by
  obtain ⟨hrst, hr⟩ := cmdReady_iff.mp h
  simp [hostTurn, rspValid, hrst, hr, hcmd]

/-! ### What a command can do to the fault state (R161, R171) -/

/-- From `s` to `t` the engine goes on: the fault state is as before, and the answer tells of no fault. -/
abbrev GoesOn (s t : State) : Prop :=
  SameFault s t ∧ ∀ rsp, t.rsp = some rsp → rsp.st ≠ .fault ∧ rsp.st ≠ .faulted

/-- What the command `i` does from `s` to `t` to the fault state: it raises its own cause if the condition of R161
holds, else it lets the engine go on. -/
abbrev FaultEffect (i : Instr) (s t : State) : Prop :=
  (raisesOwnCause s i = true ∧ t = raiseFault s (ownCause i)) ∨ (raisesOwnCause s i = false ∧ GoesOn s t)

theorem goesOn_respond {st : Status} {rv rd : Nat} (h : SameFault s u) (hst : st ≠ .fault ∧ st ≠ .faulted) :
    GoesOn s (respond u st rv rd) := by
  refine ⟨h, ?_⟩
  rintro _ ⟨⟩
  exact hst

theorem goesOn_ok {rv rd : Nat} (h : SameFault s u) : GoesOn s (respond u .ok rv rd) := goesOn_respond h (by decide)

theorem goesOn_noop (s : State) : GoesOn s (noop s) := goesOn_respond ⟨rfl, rfl⟩ (by decide)

theorem ruleOnly_insertFront_goesOn (s : State) (v : Nat) : RuleOnly (GoesOn s) (insertFront v s) := by
  intro t ht
  rcases insertFront_ok ht with ⟨-, rfl⟩ | ⟨-, -, rfl⟩
  · exact goesOn_noop s
  · exact goesOn_ok ⟨rfl, rfl⟩

theorem ruleOnly_insertBack_goesOn (s : State) (v : Nat) : RuleOnly (GoesOn s) (insertBack v s) := by
  intro t ht
  rcases insertBack_ok ht with ⟨-, rfl⟩ | ⟨-, rfl⟩
  · exact goesOn_noop s
  · exact goesOn_ok ⟨rfl, rfl⟩

/-- A rule that lets the engine go on, of a command whose condition does not hold. -/
theorem ruleOnly_faultEffect_of_goesOn (hi : raisesOwnCause s i = false) (h : RuleOnly (GoesOn s) r) :
    RuleOnly (FaultEffect i s) r := fun t ht => .inr ⟨hi, h t ht⟩

/-- A rule that tests the condition of its command first and otherwise lets the engine go on. -/
theorem ruleOnly_faultEffect_of_test {cond : Prop} [Decidable cond] (hi : raisesOwnCause s i = true ↔ cond)
    (h : RuleOnly (GoesOn s) r) :
    RuleOnly (FaultEffect i s) (if cond then .ok (raiseFault s (ownCause i)) else r) := by
  split_ifs with hcond
  · exact ruleOnly_ok (.inl ⟨hi.mpr hcond, rfl⟩)
  · exact ruleOnly_faultEffect_of_goesOn (Bool.eq_false_of_not_eq_true (hcond ∘ hi.mp)) h

/-- The rule of a pop, whose capacity-0 test comes before its condition (R171). -/
theorem ruleOnly_faultEffect_of_pop
    (hi : raisesOwnCause s i = (decide (0 < s.capacity) && s.count == 0)) (h : RuleOnly (GoesOn s) r) :
    RuleOnly (FaultEffect i s)
      (if s.capacity = 0 then .ok (noop s) else if s.count = 0 then .ok (raiseFault s (ownCause i)) else r) := by
  split_ifs with hzero hempty
  · exact ruleOnly_ok (.inr ⟨by simp [hi, hzero], goesOn_noop s⟩)
  · exact ruleOnly_ok (.inl ⟨by simp [hi, hempty, Nat.pos_of_ne_zero hzero], rfl⟩)
  · exact ruleOnly_faultEffect_of_goesOn (by simp [hi, hempty]) h

/-- All that a command of an engine that is not FAULTED can do to the fault state. -/
theorem exec_faultEffect (hf : s.fault = false) (h : exec i s = .next t) : FaultEffect i s t := by
  have guarded : ∀ {r}, unlessFaulted s r = .next t → RuleOnly (FaultEffect i s) r → FaultEffect i s t :=
    fun h hr => hr t (finish_eq_next.mp ((unlessFaulted_of_running hf _).symm.trans h))
  have same : ∀ {u : State} {rv rd}, SameFault s u → RuleOnly (GoesOn s) (.ok (respond u .ok rv rd)) :=
    fun hu => ruleOnly_ok (goesOn_ok hu)
  have read : ∀ {u : State} {k} {f : Nat → State} {rv}, (∀ x, SameFault s (f x)) →
      RuleOnly (GoesOn s) (memRead u k >>= fun x => pure (respond (f x) .ok rv x)) :=
    fun hu => ruleOnly_memRead fun x => goesOn_ok (hu x)
  cases i with
  | size | reset | iterBegin => exact guarded h (ruleOnly_faultEffect_of_goesOn rfl (same ⟨rfl, rfl⟩))
  | front | back => exact guarded h (ruleOnly_faultEffect_of_test beq_iff_eq (read fun _ => ⟨rfl, rfl⟩))
  | atIndex p => exact guarded h (ruleOnly_faultEffect_of_test decide_eq_true_iff (read fun _ => ⟨rfl, rfl⟩))
  | pushFront v | emplaceFront v =>
    exact guarded h (ruleOnly_faultEffect_of_goesOn rfl (ruleOnly_insertFront_goesOn s v))
  | pushBack v | emplaceBack v =>
    exact guarded h (ruleOnly_faultEffect_of_goesOn rfl (ruleOnly_insertBack_goesOn s v))
  | popFront | popBack => exact guarded h (ruleOnly_faultEffect_of_pop rfl (read fun _ => ⟨rfl, rfl⟩))
  | resize n =>
    rw [exec, execResize, apply_ite Except.ok] at h
    exact guarded h (ruleOnly_faultEffect_of_test decide_eq_true_iff (same ⟨rfl, rfl⟩))
  | iterNext =>
    exact guarded h (ruleOnly_faultEffect_of_test (iff_of_eq (Bool.not_eq_true' _)) (ruleOnly_ite
      (ruleOnly_ok (goesOn_respond ⟨rfl, rfl⟩ (by decide))) (read fun _ => ⟨rfl, rfl⟩)))
  | readCsr c =>
    rcases Nat.lt_or_ge c 5 with hc | hc
    · obtain ⟨r, hr⟩ := csrOf_of_lt hc
      simp only [exec, execReadCsr, hr] at h
      cases h
      exact .inr ⟨decide_eq_false hc.not_ge, goesOn_ok ⟨rfl, rfl⟩⟩
    · rw [exec_readCsr_of_illegal hc] at h
      exact guarded h (ruleOnly_ok (.inl ⟨decide_eq_true hc, rfl⟩))

/-- Raising a fault is the fault entry. -/
theorem takesFault_raiseFault (s : State) (c : Cause) :
    TakesFault (.next (raiseFault s c)) s c (causeCode c).toNat :=
  ⟨_, ⟨rfl, rfl⟩, rfl, rfl, rfl, ⟨rfl, rfl, rfl, rfl, fun _ => rfl⟩, ⟨rfl, rfl⟩, rfl, rfl⟩

/-- An engine that is not FAULTED has the cause NONE (10_state.md R33). -/
theorem cause_eq_none (hs : s.Inv) (hf : s.fault = false) : s.cause = Cause.none := by
  obtain ⟨-, -, -, -, -, -, hfault, -⟩ := hs
  by_contra hcause
  exact absurd (hf.symm.trans (hfault.mpr hcause)) (by decide)

/-! ### The host's duties (R183) -/

/-- A command whose duty is met raises no cause. -/
theorem raisesOwnCause_of_dutyMet (h : dutyMet s i = true) : raisesOwnCause s i = false := by
  cases i with
  | size | pushFront _ | pushBack _ | emplaceFront _ | emplaceBack _ | reset | iterBegin => rfl
  | front | back =>
    have hlive : 0 < s.count := of_decide_eq_true h
    exact beq_false_of_ne hlive.ne'
  | popFront | popBack =>
    have hlive : 0 < s.count := of_decide_eq_true h
    simp [raisesOwnCause, hlive.ne']
  | atIndex p =>
    have hlive : p < s.count := of_decide_eq_true h
    exact decide_eq_false hlive.not_ge
  | resize n =>
    have hn : n ≤ s.params.capMax := of_decide_eq_true h
    exact decide_eq_false hn.not_gt
  | iterNext =>
    have hvalid : s.iterValid = true := h
    simp [raisesOwnCause, hvalid]
  | readCsr c =>
    have hc : c < 5 := of_decide_eq_true h
    exact decide_eq_false hc.not_ge

/-- So a command whose duty is met lets the engine go on. -/
theorem goesOn_of_dutyMet (hf : s.fault = false) (hd : dutyMet s i = true) (h : exec i s = .next t) : GoesOn s t := by
  rcases exec_faultEffect hf h with ⟨hraises, -⟩ | ⟨-, hon⟩
  · exact absurd (hraises.symm.trans (raisesOwnCause_of_dutyMet hd)) (by decide)
  · exact hon

theorem dutiesMet_cons {is : List Instr} (h : exec i s = .next t) :
    dutiesMet (i :: is) s = true ↔ dutyMet s i = true ∧ dutiesMet is t.taken = true := by
  simp only [dutiesMet, h, Bool.and_eq_true]

end Sys2Proof.Machine

/-! Exceptions (60_exceptions.md): illegal words, the FAULTED engine, the causes of the commands, the host's duties, and
the idle engine. -/

namespace Sys2Proof.Machine

/-- Settles O11: the decoder rejects the word, and the rejection raises ILLEGAL_COMMAND. -/
theorem illegalWordsRaiseIllegalCommand : Obligations.IllegalWordsRaiseIllegalCommand := by
  intro s w hf hw
  rw [acceptWord_of_illegal hw]
  exact takesFault_of_rule hf rfl

/-- Settles O12: the guard stops every word but that of a READ_CSR of a legal number, which answers at once. -/
theorem faultedEngineOnlyReadsCsrs : Obligations.FaultedEngineOnlyReadsCsrs := by
  intro s w hf
  refine ⟨fun hw => ?guarded, fun ⟨hrsv, hop, hidx⟩ => ?read, ?running⟩
  case guarded =>
    rw [acceptWord_of_faulted_of_guarded hf hw]
    exact onlyAnswers_respond s _ _ _
  case read =>
    obtain ⟨r, hr⟩ := csrOf_of_lt hidx
    rw [acceptWord_of_decode (decode_eq_readCsr.mpr ⟨hrsv, hop, rfl⟩)]
    exact ⟨r, hr, onlyAnswers_readCsr_of_legal r hr⟩
  case running =>
    rintro ⟨-, -, hno⟩
    exact absurd (hf.symm.trans hno) (by decide)

/-- Settles O27: the next state exists by the invariant, and of the two effects on the fault state the condition of
R161 says which. -/
theorem commandsRaiseExactlyTheirOwnCause : Obligations.CommandsRaiseExactlyTheirOwnCause := by
  intro s i hs hf
  obtain ⟨t, ht, -⟩ := exec_reaches_inv hs i
  rcases exec_faultEffect hf ht with ⟨hraises, rfl⟩ | ⟨hquiet, ⟨hfault, hcause⟩, -⟩
  · exact ⟨fun _ => ht ▸ takesFault_raiseFault s _, fun h => absurd (hraises.symm.trans h) (by decide)⟩
  · exact ⟨fun h => absurd (h.symm.trans hquiet) (by decide),
      fun _ => ⟨t, ht, hfault.trans hf, hcause.trans (cause_eq_none hs hf)⟩⟩

/-- Settles O28, by induction on the commands: each lets the engine go on, and keeps what the next one needs. -/
theorem dutifulHostsSeeNoFault : Obligations.DutifulHostsSeeNoFault := by
  intro is
  induction is with
  | nil => exact fun s _ hf _ _ => ⟨[], s, rfl, hf, by simp⟩
  | cons i is ih =>
    intro s hs hf hw hduties
    obtain ⟨u, hu, hinv⟩ := exec_reaches_inv hs i
    obtain ⟨⟨hparams, -⟩, rsp, hrsp⟩ := exec_answers hu
    obtain ⟨hduty, hrest⟩ := (dutiesMet_cons hu).mp hduties
    obtain ⟨⟨hfault, -⟩, hst⟩ := goesOn_of_dutyMet hf hduty hu
    obtain ⟨rs, t, hans, ht, hrs⟩ := ih u.taken (inv_taken (hinv (hw i (by simp)))) (hfault.trans hf)
      (fun j hj => hparams ▸ hw j (by simp [hj])) hrest
    refine ⟨rsp :: rs, t, ?_, ht, List.forall_mem_cons.mpr ⟨hst rsp hrsp, hrs⟩⟩
    rw [answers_cons hu hrsp, hans]
    rfl

/-- Settles O15: no turn, or a turn that offers no word. -/
theorem idleEngineHoldsItsState : Obligations.IdleEngineHoldsItsState := fun _ hp =>
  ⟨step_of_no_turn hp, fun _ _ hi hready hcmd => (step_of_turn hp hi).trans (hostTurn_of_idle hready hcmd)⟩

end Sys2Proof.Machine

/-! The hardware-reset turn (70_reset_and_hazards.md R190). -/

namespace Sys2Proof.Machine

variable {s : State} {turn : PortInputs}

theorem cmdReady_of_rst (hrst : turn.rst = true) : cmdReady s turn = false := by
  simp [cmdReady, hrst]

theorem rspValid_of_rst (hrst : turn.rst = true) : rspValid s turn = false := by
  simp [rspValid, hrst]

theorem hostTurn_of_rst (hrst : turn.rst = true) :
    hostTurn turn s = .next (State.hardwareReset s.params s.inputs) := if_pos hrst

@[simp] theorem faultO_hardwareReset (p : Params) (turns : List PortInputs) :
    faultO (State.hardwareReset p turns) = false := rfl

/-- Settles O13: `rst` closes both ports, and the step is the hardware reset itself, whatever the engine was doing;
the fields of the reset state are then read off. -/
theorem hardwareResetTurn : Obligations.HardwareResetTurn := by
  intro s turn rest hp hi hrst
  have hstep : step s = .next (State.hardwareReset s.params rest) :=
    (step_of_turn hp hi).trans (hostTurn_of_rst hrst)
  exact ⟨cmdReady_of_rst hrst, rspValid_of_rst hrst, _, hstep, by simp⟩

end Sys2Proof.Machine
